-- ==== Sys2Proof/Word.lean ====
section
/-! DEFINITION. The value widths of `00_scope.md` R10 and the host command word of `30_encoding.md` R77.
`Bit` is Lean's `Bool` (1 is `true`). Every value is unsigned (R11). -/

namespace Sys2Proof

/-- `Byte`, 8 bits (R10). -/
abbrev Byte := BitVec 8

/-- `Addr7`, a 7-bit device register address (R10, R78). -/
abbrev Addr7 := BitVec 7

/-- `Word`, 32 bits (R10). -/
abbrev Word := BitVec 32

/-- `HCW`, the 48-bit host command word (R77). -/
abbrev Hcw := BitVec 48

/-- `READ_FLAG = 0x80` (R6). -/
abbrev readFlag : Byte := 0x80

end Sys2Proof
end

