-- ==== Sys2Proof/Machine/Signals.lean ====
section
/-! DEFINITION. Lines, levels, modes and the events of the trace: the types of `00_scope.md` R12 and
`10_state.md` R25 to R27 and R37. -/

namespace Sys2Proof.Machine

/-- `Line` (R12): the four signal lines. -/
inductive Line where
  | clock | dataOut | dataIn | select
deriving DecidableEq, Repr

/-- The numbering of R25; a naming choice only. -/
def Line.index : Line → Fin 4
  | .clock => 0
  | .dataOut => 1
  | .dataIn => 2
  | .select => 3

/-- The three lines BBT drives (R25, R27). DATA_IN holds no BBT state (R28). -/
inductive OutLine where
  | clock | dataOut | select
deriving DecidableEq, Repr

/-- An output line as a line. -/
def OutLine.line : OutLine → Line
  | .clock => .clock
  | .dataOut => .dataOut
  | .select => .select

/-- `Level` (R12). -/
inductive Level where
  | low | high
deriving DecidableEq, Repr, Inhabited

/-- `Logical` (R12): the document's active and inactive. -/
inductive Logical where
  | active | inactive
deriving DecidableEq, Repr

/-- SELECT and CLOCK are active low (R6, R9, R12). -/
def Logical.level : Logical → Level
  | .active => .low
  | .inactive => .high

/-- The values of `DIN_PULL` (R7). -/
inductive Pull where
  | none | up | down
deriving DecidableEq, Repr, Inhabited

/-- `Mode` (R12). -/
inductive Mode where
  | unconfigured | output | input (pull : Pull)
deriving DecidableEq, Repr

/-- A value or the marker `Undef` of R12: what has not been set holds no fixed value (R27, R43, R172). -/
inductive Held (α : Type) where
  | undef
  | val (v : α)
deriving DecidableEq, Repr

/-- The held value, or the free value given for `Undef`. -/
def Held.read {α : Type} (free : α) : Held α → α
  | .undef => free
  | .val v => v

/-- The operand triple of TRANSACT (R19, R125). -/
structure Transaction where
  address : Addr7
  payload : Word
  isRead  : Bool
deriving DecidableEq, Repr

/-- A host operation with its operands (R76); TRANSACT is TRANSACT_R when `isRead` and TRANSACT_W otherwise. -/
inductive HostOp where
  | init
  | xfer (outByte : Byte)
  | transact (t : Transaction)
deriving DecidableEq, Repr

/-- The four operation names of R34. -/
inductive OpName where
  | init | xfer | transactW | transactR
deriving DecidableEq, Repr

/-- The name of TRANSACT's form (R76). -/
def Transaction.name (t : Transaction) : OpName := if t.isRead then .transactR else .transactW

/-- The name of an operation. -/
def HostOp.name : HostOp → OpName
  | .init => .init
  | .xfer _ => .xfer
  | .transact t => t.name

/-- What an operation returns to the host (R42): nothing, a byte or a word. -/
inductive ReturnValue where
  | none
  | byte (b : Byte)
  | word (w : Word)
deriving DecidableEq, Repr

/-- The durations BBT passes to `DelayUs`: only `T_SETTLE` (R93). It is kept by name; its length is an open parameter. -/
inductive Duration where
  | tSettle
deriving DecidableEq, Repr

/-- The events of the trace (R37). BBT writes only its output lines and reads only DATA_IN (R91, R92). -/
inductive Event where
  /-- `Mode(l, m)`. -/
  | mode (l : Line) (m : Mode)
  /-- `Write(l, v)`. -/
  | write (l : OutLine) (v : Level)
  /-- `Read(DATA_IN, v)`. -/
  | read (v : Level)
  /-- `Delay(t)`. -/
  | delay (t : Duration)
  /-- `Call(op, operands)`. -/
  | call (op : HostOp)
  /-- `Return(op, value)`. -/
  | ret (op : OpName) (value : ReturnValue)
deriving DecidableEq, Repr

end Sys2Proof.Machine
end

