-- ==== Sys2Proof/Config.lean ====
section
/-! DEFINITION. The open parameters of `00_scope.md` R7 and the free values. Each is an opaque constant: nothing can be
proved about which value it has, so every theorem holds for every value. -/

namespace Sys2Proof

open Sys2Proof.Machine

/-- `DEVICE` (R7 (c), R23): the level DATA_IN gives at a read, from the whole trace so far and a free choice, the choice
being the number of the draw. Free value, log entry 3. -/
opaque Config.device (trace : List Event) (draw : Nat) : Level

/-- `DIN_PULL` (R7 (b), R99). Log entry 5. -/
opaque Config.dinPull : Pull

/-- `T_SETTLE` (R7 (a), R185), in a unit the spec does not fix. Log entry 4. -/
opaque Config.tSettle : Nat

/-- `T_WARMUP` (R7 (d), R178): the client's wait before its first transaction. BBT does not enforce it, and no
operation reads it. Log entry 4. -/
opaque Config.tWarmup : Nat

/-- The level the device sees on an output line that is `Undef` (R27, R100). Free value, log entry 6. -/
opaque Config.undefLevel (l : OutLine) (events : Nat) : Level

/-- What reading an 8-bit datapath register that is `Undef` gives; R33 says no operation does so. Free value, log
entry 7. -/
opaque Config.undefByte (draw : Nat) : Byte

/-- What reading `ACC` while it is `Undef` gives; R33 says no operation does so. Free value, log entry 7. -/
opaque Config.undefWord (draw : Nat) : Word

end Sys2Proof
end

