-- ==== Sys2Proof/Syntax.lean ====
section
/-! DEFINITION. The instructions: one constructor per row of spec/opcode_table.json (`30_encoding.md` R76, R83). -/

namespace Sys2Proof

/-- The four host operations (R76) and the two wire command bytes (R71).

The host's `address` argument is kept as the 8 bits HCW[39:32] it arrives in: `ADDR` with the reserved address
bit 7 above it (R77). R78 takes no address of 0x80 or more; `WellFormed` says so and the meanings refuse it. A wire
command byte has no such bit: its address is `Addr7`. -/
inductive Instr where
  /-- `INIT` (R97). -/
  | init
  /-- `XFER outByte` (R112). -/
  | xfer (outByte : Byte)
  /-- `TRANSACT_W address, payload` (R128). -/
  | transactW (address : BitVec 8) (payload : Word)
  /-- `TRANSACT_R address, payload` (R129). -/
  | transactR (address : BitVec 8) (payload : Word)
  /-- `CMD_WRITE`: the wire command byte `0 : address`, frame byte 0 of a TRANSACT_W (R71, R128). -/
  | cmdWrite (address : Addr7)
  /-- `CMD_READ`: the wire command byte `1 : address`, frame byte 0 of a TRANSACT_R (R71, R129). -/
  | cmdRead (address : Addr7)
deriving DecidableEq, Repr

end Sys2Proof
end

