-- ==== Sys2Proof/WellFormed.lean ====
section
/-! DEFINITION. Which instructions the encoding admits: the address operand is exactly 7 bits (`30_encoding.md` R78).
Every other operand has exactly its width by its type, and every command byte is well formed (R73). -/

namespace Sys2Proof

/-- The address passes R78: "BBT does not take an address of 0x80 or more". -/
def addressFits (address : BitVec 8) : Bool := !address.msb

/-- An instruction the host interface takes. -/
def Instr.wellFormed : Instr → Bool
  | .init => true
  | .xfer _ => true
  | .transactW address _ => addressFits address
  | .transactR address _ => addressFits address
  | .cmdWrite _ => true
  | .cmdRead _ => true

end Sys2Proof
end

