-- ==== Sys2Proof/Decode.lean ====
section
/-! DEFINITION. The decoder of `30_encoding.md` R77 to R83, total on every 48-bit host command word and on every wire
command byte, then the encoder written from the same tables, the opcode-table view of the decoder, and the operation
notation of R84. -/

namespace Sys2Proof

/-- Why a host command word spells no operation (R80). -/
inductive Reject where
  /-- R80 (a): `OP` is none of 0, 1, 2. -/
  | reservedOp (op : BitVec 4)
  /-- R80 (b): a must-be-zero bit of R77 is 1 for the word's `OP`. -/
  | mustBeZero
  /-- R78: bit 39, the reserved address bit 7, is 1: an address of 0x80 or more. -/
  | addressRange
deriving DecidableEq, Repr

/-- The decoder's verdict: an operation or a refusal (R80). -/
inductive Decoded where
  | instr (i : Instr)
  | reject (why : Reject)
deriving DecidableEq, Repr

/-- An encoded instruction: a host command word or a wire command byte. -/
inductive Code where
  | hcw (w : Hcw)
  | wire (b : Byte)
deriving DecidableEq, Repr

/-! ### Fields of the host command word (R77, R79) -/

/-- `OP`, bits 47..44. -/
def hcwOp (w : Hcw) : BitVec 4 := w.extractLsb' 44 4
/-- `RD`, bit 40. -/
def hcwRd (w : Hcw) : Bool := w.getLsbD 40
/-- Bits 39..32: the reserved address bit 7, then `ADDR`. -/
def hcwAddress (w : Hcw) : BitVec 8 := w.extractLsb' 32 8
/-- `PAYLOAD`, bits 31..0. -/
def hcwPayload (w : Hcw) : Word := w.extractLsb' 0 32
/-- `OUTB`, bits 7..0. -/
def hcwOutByte (w : Hcw) : Byte := w.extractLsb' 0 8

/-- INIT: every bit below `OP` is zero. -/
def decodeInit (w : Hcw) : Decoded :=
  if w.extractLsb' 0 44 = 0#44 then .instr .init else .reject .mustBeZero

/-- XFER: bits 43..8 are zero. -/
def decodeXfer (w : Hcw) : Decoded :=
  if w.extractLsb' 8 36 = 0#36 then .instr (.xfer (hcwOutByte w)) else .reject .mustBeZero

/-- TRANSACT: bits 43..41 and bit 39 are zero. -/
def decodeTransact (w : Hcw) : Decoded :=
  if w.extractLsb' 41 3 ≠ 0#3 then .reject .mustBeZero
  else if !addressFits (hcwAddress w) then .reject .addressRange
  else if hcwRd w then .instr (.transactR (hcwAddress w) (hcwPayload w))
  else .instr (.transactW (hcwAddress w) (hcwPayload w))

/-- The decoder of the host command word (R80): total. -/
def decodeHcw (w : Hcw) : Decoded :=
  if hcwOp w = 0#4 then decodeInit w
  else if hcwOp w = 1#4 then decodeXfer w
  else if hcwOp w = 2#4 then decodeTransact w
  else .reject (.reservedOp (hcwOp w))

/-- The wire command byte read by its two fields (R71); every one of the 256 values is well formed (R73). -/
def decodeWire (b : Byte) : Instr :=
  if b.msb then .cmdRead (b.setWidth 7) else .cmdWrite (b.setWidth 7)

/-- The decoder: total on any code. -/
def decode : Code → Decoded
  | .hcw w => decodeHcw w
  | .wire b => .instr (decodeWire b)

/-! ### The encoder, from R71 and R77 -/

/-- `OP : 000 : RD : 0 : ADDR : PAYLOAD`; bit 39 carries the address argument's bit 7, so that an ill-formed address
encodes as the word R78 refuses. -/
def encodeTransact (isRead : Bool) (address : BitVec 8) (payload : Word) : Hcw :=
  2#4 ++ 0#3 ++ BitVec.ofBool isRead ++ address ++ payload

/-- The words of an instruction. -/
def encode : Instr → Code
  | .init => .hcw (0#4 ++ 0#44)
  | .xfer outByte => .hcw (1#4 ++ 0#36 ++ outByte)
  | .transactW address payload => .hcw (encodeTransact false address payload)
  | .transactR address payload => .hcw (encodeTransact true address payload)
  | .cmdWrite address => .wire (0#1 ++ address)
  | .cmdRead address => .wire (1#1 ++ address)

/-- The decoder read through spec/opcode_table.json: the bits of a row, numbered as the table numbers them. A row of
format HCW48 has 48 bits and a row of format WIRE_CMD8 has 8. -/
def decodeTableBits (nbits w : Nat) : Decoded :=
  if nbits = 48 ∧ w < 2 ^ 48 then decode (.hcw (BitVec.ofNat 48 w))
  else if nbits = 8 ∧ w < 2 ^ 8 then decode (.wire (BitVec.ofNat 8 w))
  else .reject .mustBeZero

/-- The instruction of an opcode-table word, or none where the decoder refuses it. -/
def decodeTableWord (nbits w : Nat) : Option Instr :=
  match decodeTableBits nbits w with
  | .instr i => some i
  | .reject _ => none

/-! ### The operation notation of R84 and the pseudo-operations of R85 -/

/-- `WRITE a, p`: a TRANSACT_W whose return value the caller drops (R85). -/
def pseudoWrite (address : Addr7) (payload : Word) : Instr := .transactW (address.setWidth 8) payload

/-- `READ a`: a TRANSACT_R with payload 0x00000000 (R85). -/
def pseudoRead (address : Addr7) : Instr := .transactR (address.setWidth 8) 0

/-- One hexadecimal digit. -/
def hexDigit (d : Nat) : String :=
  match "0123456789ABCDEF".toList[d % 16]? with
  | some c => String.ofList [c]
  | none => "0"

/-- The low `digits` hexadecimal digits of `v`, most significant first. -/
def hexDigits : Nat → Nat → String
  | 0, _ => ""
  | digits + 1, v => hexDigits digits (v / 16) ++ hexDigit v

/-- An operation in the notation of R84; the wire rows have none, since no host issues them. -/
def notationOf : Instr → Option String
  | .init => some "INIT"
  | .xfer outByte => some ("XFER 0x" ++ hexDigits 2 outByte.toNat)
  | .transactW address payload =>
      some ("TRANSACT_W 0x" ++ hexDigits 2 address.toNat ++ ", 0x" ++ hexDigits 8 payload.toNat)
  | .transactR address payload =>
      some ("TRANSACT_R 0x" ++ hexDigits 2 address.toNat ++ ", 0x" ++ hexDigits 8 payload.toNat)
  | .cmdWrite _ => none
  | .cmdRead _ => none

end Sys2Proof
end

