-- ==== Sys2Proof/Machine/State.lean ====
section
/-! DEFINITION. The state of BBT as plain data: every piece of state of `10_state.md` R25 to R37 and R43, then the
model's own fields for the host's and the device's side. -/

namespace Sys2Proof.Machine

/-- The six steps of a bit slot (`41_byte_shifter.md` R110). -/
inductive SlotStep where
  | s1 | s2 | s3 | s4 | s5 | s6
deriving DecidableEq, Repr

/-- The positions inside a TRANSACT (R34). -/
inductive FramePos where
  | selAssert
  /-- `Byte(j, i, s)`: byte index j, bit index i, step s. -/
  | byte (j : Fin 5) (i : Fin 8) (st : SlotStep)
  | selDeassert
deriving DecidableEq, Repr

/-- `SEQ`, the sequencer position (R34): `Idle`, or `Busy(op, pos)` spelled by one constructor per operation, so that no
operation is paired with another's position. A busy position is the one performed last, as in the pseudocode, where
`SEQ <- Busy(op, pos)` stands before the step's line primitive. The operands of the operation in progress live here and
are gone when SEQ is `Idle` again (R19, R33; log entry 8). -/
inductive Seq where
  | idle
  /-- `Busy(INIT, InitStep(k))`. -/
  | init (k : Fin 6)
  /-- `Busy(XFER, Bit(i, s))`. -/
  | xfer (outByte : Byte) (i : Fin 8) (st : SlotStep)
  /-- `Busy(TRANSACT_W or TRANSACT_R, pos)`. -/
  | transact (t : Transaction) (pos : FramePos)
deriving DecidableEq, Repr

/-- The fault reasons of `60_exceptions.md` R151, each with what R151 says it records. -/
inductive FaultReason where
  /-- Code 1: the operation and its operands. -/
  | notInitialized (op : HostOp)
  /-- Code 2: the new operation, and the SEQ position of the operation in progress. -/
  | reentrant (op : HostOp) (inProgress : Seq)
deriving DecidableEq, Repr

/-- `mode[l]` for each line (R26). -/
structure Modes where
  clock   : Mode
  dataOut : Mode
  dataIn  : Mode
  select  : Mode
deriving DecidableEq, Repr

/-- `line[l]` for each output line (R27): a level or `Undef`. -/
structure Lines where
  clock   : Held Level
  dataOut : Held Level
  select  : Held Level
deriving DecidableEq, Repr

/-- A second agent's call (`60_exceptions.md` R156): it issues `word` once `after` more sequencer steps have been
performed and an operation is in progress. -/
structure Overlap where
  after : Nat
  word  : Hcw
deriving DecidableEq, Repr

/-- The machine. The first eleven fields are the spec's, and so is the last, the mark of R80 (log entry 13). The four
between are the model's own (log entries 2, 3, 9). -/
structure State where
  /-- `mode[]` (R26). -/
  modes    : Modes
  /-- `line[]` (R27). -/
  lines    : Lines
  /-- `INIT_DONE` (R30). -/
  initDone : Bool
  /-- `TXB` (R32). -/
  txb      : Held Byte
  /-- `RXB` (R32). -/
  rxb      : Held Byte
  /-- `CMD` (R32). -/
  cmd      : Held Byte
  /-- `STAT` (R32). -/
  stat     : Held Byte
  /-- `ACC` (R32). -/
  acc      : Held Word
  /-- `SEQ` (R34). -/
  seq      : Seq
  /-- `FAULT` (R36): a set, so a list without repeats, in the order raised. -/
  fault    : List FaultReason
  /-- `TRACE` (R37), oldest first. -/
  trace    : List Event
  /-- The host's program: the command words it has still to issue, in order (R76, R84, R193). -/
  program  : List Hcw
  /-- Calls of a second agent still to come (R156, R192). -/
  overlaps : List Overlap
  /-- DATA_IN levels the environment has already fixed for the next reads; once used up, `Config.device` answers. -/
  dataIn   : List Level
  /-- How many DATA_IN levels have been drawn (the free choice of R23). -/
  draws    : Nat
  /-- The refusal mark of R80, kept for the whole run: the words refused, oldest first. -/
  refusals : List Hcw
deriving DecidableEq, Repr

/-- Why the machine stops with a fault. Each reason carries the state BBT is stopped in, since `raise` writes FAULT and
the line levels stay as they were (R152). All are safe: the spec gives BBT no meaning there (R15, R151). -/
inductive Fault where
  /-- `NotInitialized` (R155), raised by XFER, TRANSACT_W and TRANSACT_R issued while INIT_DONE = 0. Safe. -/
  | notInitialized (op : HostOp) (stopped : State)
  /-- `Reentrant` (R156), raised by INIT, XFER, TRANSACT_W and TRANSACT_R issued while SEQ is not Idle. Safe. -/
  | reentrant (op : HostOp) (inProgress : Seq) (stopped : State)
  /-- BBT was stopped by an earlier fault and takes no step (R152, R154 `stuck`); raised by every operation and every
  sequencer step while FAULT is not empty, but for a word refused first (R157). Nothing of BBT's changes. Safe. -/
  | stuck (stopped : State)
deriving DecidableEq, Repr

/-- Why an instruction has no meaning. -/
inductive Refusal where
  /-- An arm of `exec` that has no meaning yet. No arm is left so. Safe. -/
  | notModelled (mnemonic : String)
  /-- A host command word that spells no BBT operation (R78, R80), raised by the fetch, by a second agent's call and by
  TRANSACT_W and TRANSACT_R given an address of 0x80 or more. It names the word and carries the state with the mark set
  and nothing else changed. Safe. -/
  | commandWord (why : Reject) (word : Hcw) (marked : State)
  /-- A wire command byte run where BBT is not about to send that byte as frame byte 0: raised by CMD_WRITE and
  CMD_READ. BBT never decodes a wire byte (R83) and sends one only inside a TRANSACT frame (R81, R127). Nothing changes.
  Safe. -/
  | wireByte (byte : Byte) (unchanged : State)
deriving DecidableEq, Repr

/-- The state before the first host operation (R43). The host, the second agent and the device have given nothing yet. -/
def State.reset : State where
  modes    := { clock := .unconfigured, dataOut := .unconfigured, dataIn := .unconfigured, select := .unconfigured }
  lines    := { clock := .undef, dataOut := .undef, select := .undef }
  initDone := false
  txb      := .undef
  rxb      := .undef
  cmd      := .undef
  stat     := .undef
  acc      := .undef
  seq      := .idle
  fault    := []
  trace    := []
  program  := []
  overlaps := []
  dataIn   := []
  draws    := 0
  refusals := []

end Sys2Proof.Machine
end

