-- ==== Sys2Proof/Machine/Operands.lean ====
section
/-! DEFINITION. The operand forms and the datapath's computations: the four of `42_transaction_framer.md` R144, the level
map of `40_line_control.md` R94, and the host operand narrowed to R78's 7 bits. There are no others. -/

namespace Sys2Proof.Machine

/-- `level(b)` (R94): 1 is High. -/
def level (b : Bool) : Level := if b then .high else .low

/-- `bit(v)` (R94): High is 1. -/
def bit (v : Level) : Bool := v == .high

/-- `CMD <- zext_8(address) | (isRead ? READ_FLAG : 0x00)` (R72, R144 (a)). -/
def commandByte (isRead : Bool) (address : Addr7) : Byte :=
  address.setWidth 8 ||| (if isRead then readFlag else 0x00)

/-- `RXB[i] <- b` (R144 (b)): one bit written, the other seven kept. -/
def setBit (v : Byte) (i : Fin 8) (b : Bool) : Byte :=
  (v &&& ~~~(1#8 <<< i.val)) ||| (if b then 1#8 <<< i.val else 0#8)

/-- `(ACC << 8) | zext_32(r)` (R144 (c)). -/
def accumulate (acc : Word) (r : Byte) : Word := (acc <<< 8) ||| r.setWidth 32

/-- `payload[39-8j : 32-8j]` for j = 1..4 (R74, R144 (d)). -/
def payloadByte (payload : Word) (j : Fin 5) : Byte := payload.extractLsb' (32 - 8 * j.val) 8

/-- `(j == 0) ? CMD : payload[39-8j : 32-8j]` (R127). -/
def frameByte (cmd : Byte) (payload : Word) (j : Fin 5) : Byte :=
  if j = 0 then cmd else payloadByte payload j

/-- The 7-bit address operand, where the host's argument is one (R78). -/
def narrowAddress (address : BitVec 8) : Option Addr7 :=
  if addressFits address then some (address.setWidth 7) else none

/-- The host operation an instruction issues; the wire rows issue none (R83). -/
def hostOpOf : Instr → Option HostOp
  | .init => some .init
  | .xfer outByte => some (.xfer outByte)
  | .transactW address payload =>
      (narrowAddress address).map fun a => .transact { address := a, payload := payload, isRead := false }
  | .transactR address payload =>
      (narrowAddress address).map fun a => .transact { address := a, payload := payload, isRead := true }
  | .cmdWrite _ => none
  | .cmdRead _ => none

/-- What reading `TXB` gives (R32). -/
def State.txbByte (s : State) : Byte := s.txb.read (Config.undefByte s.draws)
/-- What reading `RXB` gives (R32). -/
def State.rxbByte (s : State) : Byte := s.rxb.read (Config.undefByte s.draws)
/-- What reading `CMD` gives (R32). -/
def State.cmdByte (s : State) : Byte := s.cmd.read (Config.undefByte s.draws)
/-- What reading `ACC` gives (R32). -/
def State.accWord (s : State) : Word := s.acc.read (Config.undefWord s.draws)

end Sys2Proof.Machine
end

