-- ==== Sys2Proof/Machine/Flags.lean ====
section
/-! DEFINITION. BBT has no flags, condition codes or predicates (`10_state.md` R38), so there is no flag computation.
The conditions an entry check tests (`60_exceptions.md` R154) are these. -/

namespace Sys2Proof.Machine

/-- BBT is stopped: FAULT is not empty (R36, R152). -/
def State.isStopped (s : State) : Bool := !s.fault.isEmpty

/-- An operation is in progress: SEQ is not Idle (R156). -/
def State.isBusy (s : State) : Bool := s.seq != .idle

/-- Only INIT may run before an INIT has completed (R155). -/
def HostOp.needsInit : HostOp → Bool
  | .init => false
  | .xfer _ => true
  | .transact _ => true

end Sys2Proof.Machine
end

