-- ==== Sys2Proof/Machine/Ops.lean ====
section
/-! DEFINITION. The shared operations: reads and writes of lines and modes, the four line primitives
(`40_line_control.md` R90 to R95), raising a fault and the entry check (`60_exceptions.md` R152 to R157), and refusing a
host command word (`30_encoding.md` R80). A fault's entry is `raiseFault`; BBT has no trap return (R160). -/

namespace Sys2Proof.Machine

/-- The outcome of a step of BBT (R15). -/
abbrev Result := Host.Outcome State Fault Refusal

/-! ### Lines, modes and the trace -/

/-- `mode[l]` (R26). -/
def State.mode (s : State) : Line → Mode
  | .clock => s.modes.clock
  | .dataOut => s.modes.dataOut
  | .dataIn => s.modes.dataIn
  | .select => s.modes.select

/-- `mode[l] <- m` (R26). -/
def State.setMode (s : State) (l : Line) (m : Mode) : State :=
  match l with
  | .clock => { s with modes := { s.modes with clock := m } }
  | .dataOut => { s with modes := { s.modes with dataOut := m } }
  | .dataIn => { s with modes := { s.modes with dataIn := m } }
  | .select => { s with modes := { s.modes with select := m } }

/-- `line[l]` (R27). -/
def State.line (s : State) : OutLine → Held Level
  | .clock => s.lines.clock
  | .dataOut => s.lines.dataOut
  | .select => s.lines.select

/-- `line[l] <- v` (R27). -/
def State.setLine (s : State) (l : OutLine) (v : Level) : State :=
  match l with
  | .clock => { s with lines := { s.lines with clock := .val v } }
  | .dataOut => { s with lines := { s.lines with dataOut := .val v } }
  | .select => { s with lines := { s.lines with select := .val v } }

/-- The level the device sees on an output line: what BBT drives, or any level while it is `Undef` (R27, R100). -/
def State.seen (s : State) (l : OutLine) : Level := (s.line l).read (Config.undefLevel l s.trace.length)

/-- `TRACE <- TRACE ++ [e]` (R37). -/
def State.emit (s : State) (e : Event) : State := { s with trace := s.trace ++ [e] }

/-! ### The line primitives -/

/-- `LineMode(l, m)` (R90). -/
def lineMode (l : Line) (m : Mode) (s : State) : State := (s.setMode l m).emit (.mode l m)

/-- `LineWrite(l, v)` (R91). -/
def lineWrite (l : OutLine) (v : Level) (s : State) : State := (s.setLine l v).emit (.write l v)

/-- The device's answer to the next read (R23): one the environment has fixed, else the free value. -/
def State.answer (s : State) : Level :=
  match s.dataIn with
  | v :: _ => v
  | [] => Config.device s.trace s.draws

/-- `LineRead(DATA_IN)` (R92): the state after it; the level it returns is `s.answer`. -/
def lineRead (s : State) : State :=
  { s.emit (.read s.answer) with dataIn := s.dataIn.tail, draws := s.draws + 1 }

/-- `DelayUs(t)` (R93): it changes nothing but TRACE. -/
def delayUs (t : Duration) (s : State) : State := s.emit (.delay t)

/-- `ClkActive` (R95). -/
def clkActive (s : State) : State := lineWrite .clock Logical.active.level s
/-- `ClkInactive` (R95). -/
def clkInactive (s : State) : State := lineWrite .clock Logical.inactive.level s
/-- `SelAssert` (R95). -/
def selAssert (s : State) : State := lineWrite .select Logical.active.level s
/-- `SelDeassert` (R95). -/
def selDeassert (s : State) : State := lineWrite .select Logical.inactive.level s

/-! ### Faults and refusals -/

/-- The code of a fault reason (R151). -/
def FaultReason.code : FaultReason → Nat
  | .notInitialized _ => 1
  | .reentrant _ _ => 2

/-- `raise Fault(r)` (R36, R152): r is added to FAULT; no event, no line and no other state changes. -/
def raiseFault (r : FaultReason) (s : State) : State :=
  { s with fault := if s.fault.contains r then s.fault else s.fault ++ [r] }

/-- `EntryCheck(op)` (R154): the fault that keeps `op` from starting, or none. -/
def entryCheck (op : HostOp) (s : State) : Option Fault :=
  if s.isStopped then some (.stuck s)
  else if s.isBusy then some (.reentrant op s.seq (raiseFault (.reentrant op s.seq) s))
  else if op.needsInit && !s.initDone then some (.notInitialized op (raiseFault (.notInitialized op) s))
  else none

/-- Refuse a host command word (R80): the mark that names it, and nothing else changed. -/
def refuseWord (why : Reject) (w : Hcw) (s : State) : Result :=
  .refused (.commandWord why w { s with refusals := s.refusals ++ [w] })

/-! ### A second agent's call (R156, R192) -/

/-- The outcome of a word issued by a second agent, in the order of R157: refusal, stopped, Reentrant. `none` where
nothing stops it, which is only while SEQ is Idle. -/
def overlapOutcome (w : Hcw) (s : State) : Option Result :=
  match decodeHcw w with
  | .reject why => some (refuseWord why w s)
  | .instr i =>
    match hostOpOf i with
    | some op => (entryCheck op s).map .fault
    | none => none

/-- The call that lands now, between two sequencer steps, if there is one. -/
def landing (s : State) : Option Result :=
  match s.overlaps with
  | { after := 0, word := w } :: rest => if s.isBusy then overlapOutcome w { s with overlaps := rest } else none
  | _ => none

/-- What a stopped BBT answers instead of a step (R152), in the order of R157: a second agent's word that is due is
decoded first, so it is refused if it spells no operation; and otherwise BBT is stuck. -/
def stoppedOutcome (s : State) : Result :=
  match landing s with
  | some r => r
  | none => .fault (.stuck s)

/-- One sequencer step has passed for the second agent's next call. -/
def countdown (s : State) : State :=
  match s.overlaps with
  | { after := n, word := w } :: rest => { s with overlaps := { after := n - 1, word := w } :: rest }
  | [] => s

end Sys2Proof.Machine
end

