-- ==== Sys2Proof/Machine/Sequencer.lean ====
section
/-! DEFINITION. The sequencer: the fixed order of positions (`10_state.md` R34, R35), what each position performs
(`40_line_control.md` R97, `41_byte_shifter.md` R110 and R111, `42_transaction_framer.md` R127), and running an
operation from its entry check to its return. Each step performs at most one line primitive (R22). -/

namespace Sys2Proof.Machine

/-! ### The order of positions (R35) -/

/-- The step after a step of a bit slot (R110). -/
def SlotStep.next : SlotStep → Option SlotStep
  | .s1 => some .s2
  | .s2 => some .s3
  | .s3 => some .s4
  | .s4 => some .s5
  | .s5 => some .s6
  | .s6 => none

/-- The position after `Bit(i, s)` in a byte shift: bit indices run 7 downto 0 (R35, R111). -/
def nextInByte (i : Fin 8) (st : SlotStep) : Option (Fin 8 × SlotStep) :=
  match st.next with
  | some st' => some (i, st')
  | none => if i = 0 then none else some (i - 1, .s1)

/-- The position after a position of TRANSACT (R35). -/
def FramePos.next : FramePos → Option FramePos
  | .selAssert => some (.byte 0 7 .s1)
  | .byte j i st =>
    match nextInByte i st with
    | some (i', st') => some (.byte j i' st')
    | none => if j = 4 then some .selDeassert else some (.byte (j + 1) 7 .s1)
  | .selDeassert => none

/-- The position after a busy position; none after an operation's last (R35). -/
def Seq.next : Seq → Option Seq
  | .idle => none
  | .init k => if k = 5 then none else some (.init (k + 1))
  | .xfer b i st => (nextInByte i st).map fun p => .xfer b p.1 p.2
  | .transact t pos => pos.next.map (.transact t)

/-- The bit indices of a byte shift, in order (R13, R111). -/
def bitIndices : List (Fin 8) := [7, 6, 5, 4, 3, 2, 1, 0]

/-- The steps of a bit slot, in order (R110). -/
def slotSteps : List SlotStep := [.s1, .s2, .s3, .s4, .s5, .s6]

/-- The 48 positions of a byte shift, each made a sequencer position by `mk` (R35). -/
def bytePositions (mk : Fin 8 → SlotStep → Seq) : List Seq :=
  bitIndices.flatMap fun i => slotSteps.map fun st => mk i st

/-- The 48 positions of frame byte j (R35). -/
def frameBytePositions (t : Transaction) (j : Fin 5) : List Seq :=
  bytePositions fun i st => .transact t (.byte j i st)

/-- The positions of an operation, in order: 6, 48 or 242 of them (R35). -/
def HostOp.positions : HostOp → List Seq
  | .init => ([0, 1, 2, 3, 4, 5] : List (Fin 6)).map .init
  | .xfer outByte => bytePositions (.xfer outByte)
  | .transact t =>
      .transact t .selAssert
        :: (([0, 1, 2, 3, 4] : List (Fin 5)).flatMap (frameBytePositions t) ++ [.transact t .selDeassert])

/-! ### What a position performs -/

/-- The six steps of a bit slot, `ShiftBit(i)` (R110). -/
def shiftBit (i : Fin 8) : SlotStep → State → State
  | .s1, s => lineWrite .dataOut (level (s.txbByte.getLsbD i.val)) s
  | .s2, s => delayUs .tSettle s
  | .s3, s => clkActive s
  | .s4, s => { lineRead s with rxb := .val (setBit s.rxbByte i (bit s.answer)) }
  | .s5, s => delayUs .tSettle s
  | .s6, s => clkInactive s

/-- The start of `ShiftByte(b)`: TXB loaded and RXB cleared (R111). -/
def loadByte (b : Byte) (s : State) : State := { s with txb := .val b, rxb := .val 0x00 }

/-- One position of a byte shift of `b`: the byte is loaded with the first step of its first slot (R111). -/
def shiftStep (b : Byte) (i : Fin 8) (st : SlotStep) (s : State) : State :=
  shiftBit i st (if i = 7 ∧ st = .s1 then loadByte b s else s)

/-- The end of frame byte j: the byte goes to STAT for j = 0 and into ACC after (R127, R131). -/
def storeByte (j : Fin 5) (s : State) : State :=
  if j = 0 then { s with stat := .val s.rxbByte }
  else { s with acc := .val (accumulate s.accWord s.rxbByte) }

/-- One position of frame byte j (R127). -/
def frameStep (t : Transaction) (j : Fin 5) (i : Fin 8) (st : SlotStep) (s : State) : State :=
  let s' := shiftStep (frameByte s.cmdByte t.payload j) i st s
  if i = 0 ∧ st = .s6 then storeByte j s' else s'

/-- InitStep(k) (R97). -/
def initStep (k : Fin 6) (s : State) : State :=
  match k with
  | 0 => lineMode .select .output s
  | 1 => selDeassert s
  | 2 => lineMode .clock .output s
  | 3 => clkInactive s
  | 4 => lineMode .dataOut .output s
  | 5 => { lineMode .dataIn (.input Config.dinPull) s with initDone := true }

/-- What BBT does at a position: one line primitive and the register writes tied to it (R22). -/
def act : Seq → State → State
  | .idle, s => s
  | .init k, s => initStep k s
  | .xfer b i st, s => shiftStep b i st s
  | .transact _ .selAssert, s => selAssert s
  | .transact t (.byte j i st), s => frameStep t j i st s
  | .transact _ .selDeassert, s => selDeassert s

/-- After the last position, SEQ goes back to Idle and the operation returns its value (R35, R37, R42). -/
def complete (s : State) : State :=
  match s.seq with
  | .idle => s
  | .init _ => { s.emit (.ret .init .none) with seq := .idle }
  | .xfer _ _ _ => { s.emit (.ret .xfer (.byte s.rxbByte)) with seq := .idle }
  | .transact t _ => { s.emit (.ret t.name (.word s.accWord)) with seq := .idle }

/-- `SEQ <- Busy(op, pos)`, then what the position does, then the return if it was the last (R35). -/
def perform (p : Seq) (s : State) : State :=
  let s' := act p { s with seq := p }
  match p.next with
  | some _ => s'
  | none => complete s'

/-! ### Running an operation -/

/-- Perform the positions in order. Between two of them a second agent's call may land (R153, R156). -/
def runSeq : List Seq → State → Result
  | [], s => .next s
  | p :: ps, s =>
    match landing s with
    | some r => r
    | none => runSeq ps (perform p (countdown s))

/-- The start of an operation that has passed its entry check: the Call event, and for TRANSACT the command byte and
the cleared accumulator (R97, R112, R127). -/
def openCall (op : HostOp) (s : State) : State :=
  match op with
  | .init => s.emit (.call op)
  | .xfer _ => s.emit (.call op)
  | .transact t =>
      { s.emit (.call op) with cmd := .val (commandByte t.isRead t.address), acc := .val 0x00000000 }

/-- A host operation, from its entry check to its return (R150: an operation that passes its entry check runs to its
end). -/
def issue (op : HostOp) (s : State) : Result :=
  match entryCheck op s with
  | some f => .fault f
  | none => runSeq op.positions (openCall op s)

/-- One step of an operation in progress (R22): the second agent's call if it lands now, else the next position. After
the last position there is only the return left. A stopped BBT takes no step (R152). -/
def advance (s : State) : Result :=
  if s.isStopped then stoppedOutcome s
  else
    match landing s with
    | some r => r
    | none =>
      match s.seq.next with
      | some p => .next (perform p (countdown s))
      | none => .next (complete s)

end Sys2Proof.Machine
end

