-- ==== Sys2Proof/Machine/ByteShifter.lean ====
section
/-! DEFINITION. The meaning of XFER (`41_byte_shifter.md` R112). -/

namespace Sys2Proof.Machine

/-- XFER (R112): shifts one byte out and one byte in, with SELECT untouched (R117). -/
def execXfer (outByte : Byte) (s : State) : Result := issue (.xfer outByte) s

end Sys2Proof.Machine
end

