-- ==== Sys2Proof/Machine/Framer.lean ====
section
/-! DEFINITION. The meanings of TRANSACT_W and TRANSACT_R (`42_transaction_framer.md` R127 to R129) and of the two wire
command bytes (`30_encoding.md` R71, R83). -/

namespace Sys2Proof.Machine

/-- TRANSACT's common body (R127). An address of 0x80 or more is refused (R78), as the host command word that spells it;
a refusal comes before every check of state (R157). -/
def transact (isRead : Bool) (address : BitVec 8) (payload : Word) (s : State) : Result :=
  match narrowAddress address with
  | some a => issue (.transact { address := a, payload := payload, isRead := isRead }) s
  | none => refuseWord .addressRange (encodeTransact isRead address payload) s

/-- TRANSACT_W (R128). -/
def execTransactW (address : BitVec 8) (payload : Word) (s : State) : Result := transact false address payload s

/-- TRANSACT_R (R129). -/
def execTransactR (address : BitVec 8) (payload : Word) (s : State) : Result := transact true address payload s

/-- A wire command byte: BBT sends it as frame byte 0 of the TRANSACT in progress, once SELECT is asserted, and puts the
byte sampled meanwhile into STAT (R70, R127, R131). It is the part of TRANSACT's own run from `SelAssert` to the end of
byte 0. Where BBT is not about to send that byte, nothing spells it (R81, R83). Log entry 11. -/
def sendCommandByte (b : Byte) (s : State) : Result :=
  if s.isStopped then stoppedOutcome s
  else
    match s.seq with
    | .transact t .selAssert =>
        if s.cmdByte = b then runSeq (frameBytePositions t 0) s else .refused (.wireByte b s)
    | _ => .refused (.wireByte b s)

/-- CMD_WRITE (R71, R128): the command byte with `R` = 0. -/
def execCmdWrite (address : Addr7) (s : State) : Result := sendCommandByte (commandByte false address) s

/-- CMD_READ (R71, R129): the command byte with `R` = 1. -/
def execCmdRead (address : Addr7) (s : State) : Result := sendCommandByte (commandByte true address) s

end Sys2Proof.Machine
end

