-- ==== Sys2Proof/Machine/LineControl.lean ====
section
/-! DEFINITION. The meaning of INIT (`40_line_control.md` R96 to R101). -/

namespace Sys2Proof.Machine

/-- INIT (R97): sets the four lines' modes and the idle levels of SELECT and CLOCK, and sets INIT_DONE; it may run any
number of times while SEQ is Idle (R96, R98). -/
def execInit (s : State) : Result := issue .init s

end Sys2Proof.Machine
end

