-- ==== Sys2Proof/Machine/Dispatch.lean ====
section
/-! DEFINITION. One arm per constructor of Instr, each one call of that instruction's meaning. -/

namespace Sys2Proof.Machine

def exec (i : Instr) (s : State) : Host.Outcome State Fault Refusal :=
  match i with
  | .init => Sys2Proof.Machine.execInit s
  | .xfer outByte => Sys2Proof.Machine.execXfer outByte s
  | .transactW address payload => Sys2Proof.Machine.execTransactW address payload s
  | .transactR address payload => Sys2Proof.Machine.execTransactR address payload s
  | .cmdWrite address => Sys2Proof.Machine.execCmdWrite address s
  | .cmdRead address => Sys2Proof.Machine.execCmdRead address s

end Sys2Proof.Machine
end

