-- ==== Sys2Proof/Machine/Fetch.lean ====
section
/-! DEFINITION. Which instruction BBT takes next, and where an opcode-table word is put for it. BBT fetches nothing from
memory (`00_scope.md` R5): a host command word is passed in by the host when SEQ is Idle (`20_memory.md` R68,
`30_encoding.md` R76), and a wire command byte comes from CMD when SELECT has just been asserted. -/

namespace Sys2Proof.Machine

/-- With SEQ Idle (R157, R158): a stopped BBT takes no step unless the word issued is refused first; with nothing left to
issue BBT waits; otherwise the host's next word is decoded. -/
def fetchHost (s : State) : Except Result (Instr × State) :=
  match s.program with
  | [] => .error (if s.isStopped then .fault (.stuck s) else .next s)
  | w :: rest =>
    match decodeHcw w with
    | .reject why => .error (refuseWord why w { s with program := rest })
    | .instr i => .ok (i, { s with program := rest })

/-- What the next step runs: the instruction and the state it runs in, or the step's whole outcome where it runs none.
While an operation is in progress the sequencer goes on with it, one position a step (R22), unless BBT is stopped; right
after `SelAssert` the next thing to send is the command byte, read by its two fields (R71). -/
def nextInstr (s : State) : Except Result (Instr × State) :=
  match s.seq with
  | .idle => fetchHost s
  | .transact _ .selAssert => .ok (decodeWire s.cmdByte, s)
  | _ => .error (advance s)

/-- Put an opcode-table word where the next step takes it. A host command word goes to the head of the host's program,
with SEQ Idle, as the host issues only then (R21). A wire command byte goes to CMD of a frame whose SELECT has just been
asserted, its payload zero. A width the table does not have places nothing. -/
def placeWord (s : State) (nbits w : Nat) : State :=
  if nbits = 48 then { s with seq := .idle, program := BitVec.ofNat 48 w :: s.program }
  else if nbits = 8 then
    let b := BitVec.ofNat 8 w
    { s with seq := .transact { address := b.setWidth 7, payload := 0, isRead := b.msb } .selAssert, cmd := .val b }
  else s

end Sys2Proof.Machine
end

