-- ==== Sys2Proof/Machine/Step.lean ====
section
/-! DEFINITION. One step of the machine: the next instruction is fetched and run, or the operation in progress goes on. -/

namespace Sys2Proof.Machine

/-- A step has exactly one of three outcomes (R15). -/
def step (s : State) : Host.Outcome State Fault Refusal :=
  match nextInstr s with
  | .ok (i, s') => exec i s'
  | .error r => r

/-- `s` with an opcode-table word stored where `step` takes its next instruction. -/
def State.withFetchWord (s : State) (nbits w : Nat) : State := placeWord s nbits w

end Sys2Proof.Machine
end

