-- ==== Sys2Proof/Machine/Fixtures.lean ====
section
/-! DEFINITION. The device's side, in the terms claims use: what the trace shows a device that watches the lines, an
oracle as a function of the trace (`10_state.md` R23), and the fixtures of `95_test_vectors.md` §0. The fixtures are test
oracles, not part of BBT (decision D26): no operation reads this file. -/

namespace Sys2Proof.Machine

/-- The level last written to an output line, `Undef` if none was (R27, R91). -/
def lastWrite (l : OutLine) (tr : List Event) : Held Level :=
  tr.foldl (fun h e => match e with
    | .write l' v => if l' = l then .val v else h
    | _ => h) .undef

/-- The mode last set on a line, `Unconfigured` if none was (R26, R90). -/
def lastMode (l : Line) (tr : List Event) : Mode :=
  tr.foldl (fun h e => match e with
    | .mode l' m => if l' = l then m else h
    | _ => h) .unconfigured

/-- A device as a function of the trace so far. -/
abbrev Oracle := List Event → Level

/-- Every read among the events `es`, which follow `before`, was answered as the oracle answers. -/
def follows (o : Oracle) : List Event → List Event → Bool
  | _, [] => true
  | before, e :: es =>
    (match e with
      | .read v => v == o before
      | _ => true) && follows o (before ++ [e]) es

/-- What a device that latches DATA_OUT at each active edge of CLOCK while SELECT is Low has seen (R55, R115):
whether a frame is open, the bits latched in it so far, and the frames closed, oldest first. -/
structure Latched where
  dataOut : Held Level
  inFrame : Bool
  bits    : List Bool
  frames  : List (List Bool)
deriving DecidableEq, Repr

/-- One event as that device sees it. A DATA_OUT that is `Undef` latches as 0; BBT clocks no such bit. -/
def latchEvent (d : Latched) : Event → Latched
  | .write .dataOut v => { d with dataOut := .val v }
  | .write .select .low => { d with inFrame := true, bits := [] }
  | .write .select .high =>
      if d.inFrame then { d with inFrame := false, frames := d.frames ++ [d.bits] } else d
  | .write .clock .low => if d.inFrame then { d with bits := d.bits ++ [bit (d.dataOut.read .low)] } else d
  | .write .clock .high => d
  | .mode _ _ => d
  | .read _ => d
  | .delay _ => d
  | .call _ => d
  | .ret _ _ => d

/-- What the device has latched over a trace. -/
def latched (tr : List Event) : Latched :=
  tr.foldl latchEvent { dataOut := .undef, inFrame := false, bits := [], frames := [] }

/-- The bits of a value in wire order, most significant first (R53, R54). -/
def wireBits {n : Nat} (v : BitVec n) : List Bool := (List.range n).map fun t => v.getLsbD (n - 1 - t)

/-- The levels of a value in wire order (R53, R94). -/
def wireLevels {n : Nat} (v : BitVec n) : List Level := (wireBits v).map level

/-- The value whose wire order the bits are; the last bit is bit 0. -/
def ofWireBits (n : Nat) (bs : List Bool) : BitVec n := bs.foldl (fun v b => (v <<< 1) ||| (if b then 1 else 0)) 0

/-- LOOPBACK: DATA_OUT wired to DATA_IN. -/
def loopback : Oracle := fun tr => (lastWrite .dataOut tr).read (Config.undefLevel .dataOut tr.length)

/-- STUCK_L and STUCK_H. -/
def stuckAt (v : Level) : Oracle := fun _ => v

/-- SCRIPT: in a frame the read of slot t returns bit 39-t of the 40 script bits; outside a frame reads return Low. -/
def script (bytes : BitVec 40) : Oracle := fun tr =>
  let d := latched tr
  if d.inFrame then level (bytes.getLsbD (40 - d.bits.length)) else .low

/-- The registers a device that stores every whole write frame holds after those frames; an address never written
holds its value in `store`, or 0. -/
def storeAfter (store : List (Addr7 × Word)) (frames : List (List Bool)) : List (Addr7 × Word) :=
  frames.foldl (fun st f =>
    let fo := ofWireBits 40 f
    if f.length = 40 ∧ fo.getLsbD 39 = false then (fo.extractLsb' 32 7, fo.extractLsb' 0 32) :: st else st) store

/-- A register of a store; 0 where none is listed. -/
def readStore (store : List (Addr7 × Word)) (a : Addr7) : Word := ((store.find? fun e => e.1 = a).map Prod.snd).getD 0

/-- REGSTORE: on a read frame, slots 8 to 39 give the stored register, most significant bit first; every other read
is Low. -/
def regStore (store : List (Addr7 × Word)) : Oracle := fun tr =>
  let d := latched tr
  let t := d.bits.length - 1
  if d.inFrame ∧ 8 ≤ t ∧ (d.bits.headD false) then
    level ((readStore (storeAfter store d.frames) (ofWireBits 7 ((d.bits.drop 1).take 7))).getLsbD (39 - t))
  else .low

end Sys2Proof.Machine
end

