-- ==== Sys2Proof/Safety.lean ====
section
/-! DEFINITION. What counts as a good run, in the terms claims use: when an operation may start, the line events the
rules give each operation, the end of a run (`70_reset_and_hazards.md` R193), the lower bounds on time (R185), and the
invariant of BBT's states. -/

namespace Sys2Proof.Machine

/-! ### When an operation may start -/

/-- An operation other than INIT may start (R126, R154), and no second agent's call is coming (R21). -/
structure State.Ready (s : State) : Prop where
  running  : s.fault = []
  idle     : s.seq = .idle
  initDone : s.initDone = true
  alone    : s.overlaps = []

/-- INIT may start (R96), and no second agent's call is coming (R21). -/
structure State.ReadyForInit (s : State) : Prop where
  running : s.fault = []
  idle    : s.seq = .idle
  alone   : s.overlaps = []

/-! ### The line events of each operation, written from the rules -/

/-- The six events of a bit slot that sends `b` and samples `v` (R110). -/
def slotEvents (b : Bool) (v : Level) : List Event :=
  [.write .dataOut (level b), .delay .tSettle, .write .clock .low, .read v, .delay .tSettle, .write .clock .high]

/-- The 48 events of a byte shift that sends `out` and samples `received`, most significant bit first (R53, R111). -/
def byteEvents (out received : Byte) : List Event :=
  slotEvents (out.getLsbD 7) (level (received.getLsbD 7)) ++
  slotEvents (out.getLsbD 6) (level (received.getLsbD 6)) ++
  slotEvents (out.getLsbD 5) (level (received.getLsbD 5)) ++
  slotEvents (out.getLsbD 4) (level (received.getLsbD 4)) ++
  slotEvents (out.getLsbD 3) (level (received.getLsbD 3)) ++
  slotEvents (out.getLsbD 2) (level (received.getLsbD 2)) ++
  slotEvents (out.getLsbD 1) (level (received.getLsbD 1)) ++
  slotEvents (out.getLsbD 0) (level (received.getLsbD 0))

/-- The 242 events of a TRANSACT: SELECT asserted, the command byte, the payload bytes most significant first, SELECT
de-asserted (R54, R75, R127). -/
def frameEvents (cmd : Byte) (payload : Word) (stat : Byte) (result : Word) : List Event :=
  [.write .select .low] ++ byteEvents cmd stat ++
  byteEvents (payload.extractLsb' 24 8) (result.extractLsb' 24 8) ++
  byteEvents (payload.extractLsb' 16 8) (result.extractLsb' 16 8) ++
  byteEvents (payload.extractLsb' 8 8) (result.extractLsb' 8 8) ++
  byteEvents (payload.extractLsb' 0 8) (result.extractLsb' 0 8) ++ [.write .select .high]

/-- The six line events of INIT, in its canonical order (R97). -/
def initEvents : List Event :=
  [.mode .select .output, .write .select .high, .mode .clock .output, .write .clock .high, .mode .dataOut .output,
   .mode .dataIn (.input Config.dinPull)]

/-- The line modes INIT leaves (R44). -/
def initModes : Modes :=
  { clock := .output, dataOut := .output, dataIn := .input Config.dinPull, select := .output }

/-- The events with the levels and values blanked: which events happen, in what order (R137, R189). -/
def Event.shape : Event → Event
  | .mode l m => .mode l m
  | .write .dataOut _ => .write .dataOut .low
  | .write .clock v => .write .clock v
  | .write .select v => .write .select v
  | .read _ => .read .low
  | .delay t => .delay t
  | .call _ => .call .init
  | .ret _ _ => .ret .init .none

/-! ### Time (R185, R190) -/

/-- A lower bound on how long an event takes: `DelayUs(t)` lasts at least t, every other event at least 0 (R185). -/
def Event.minTime : Event → Nat
  | .delay .tSettle => Config.tSettle
  | .mode _ _ => 0
  | .write _ _ => 0
  | .read _ => 0
  | .call _ => 0
  | .ret _ _ => 0

/-- A lower bound on how long events take. -/
def minTime (es : List Event) : Nat := (es.map Event.minTime).sum

/-! ### The host's view and the end of a run -/

/-- The values the host has been returned, oldest first (R42, R193). -/
def returned (tr : List Event) : List ReturnValue :=
  tr.filterMap fun e => match e with
    | .ret _ v => some v
    | _ => none

/-- The calls and returns of a trace balance: every operation issued has returned (R193 (b)). -/
def allReturned (tr : List Event) : Bool :=
  match (tr.filter fun e => match e with
    | .call _ => true
    | .ret _ _ => true
    | _ => false).getLast? with
  | none => true
  | some (.ret _ _) => true
  | some _ => false

/-- The run has ended (R193): every operation issued, the last one returned, SEQ Idle, no fault, no refusal. -/
def State.final (s : State) : Bool :=
  s.program.isEmpty && allReturned s.trace && !s.isBusy && !s.isStopped && s.refusals.isEmpty

/-- The observation of an ended run (R193). -/
structure Observation where
  trace    : List Event
  returned : List ReturnValue
  lines    : Lines
  modes    : Modes
deriving DecidableEq, Repr

/-- What is observed of a state (R37, R193). -/
def State.observe (s : State) : Observation :=
  { trace := s.trace, returned := returned s.trace, lines := s.lines, modes := s.modes }

/-! ### The invariant -/

/-- The number of reads among events (R28). -/
def readCount (tr : List Event) : Nat :=
  tr.countP fun e => match e with
    | .read _ => true
    | _ => false

/-- The line state is what the trace says BBT did: each level is the last one written (R27) and each mode the last one
set (R26). -/
structure State.MatchesTrace (s : State) : Prop where
  lines : ∀ l, s.line l = lastWrite l s.trace
  modes : ∀ l, s.mode l = lastMode l s.trace

/-- The level of CLOCK after a step of a bit slot: Low from S3 to S5 (R110, R122). -/
def clockAfter : SlotStep → Level
  | .s1 => .high
  | .s2 => .high
  | .s3 => .low
  | .s4 => .low
  | .s5 => .low
  | .s6 => .high

/-- INIT has completed, the lines are configured, and SELECT and CLOCK are as given (R44, R45, R133). -/
structure State.Driven (s : State) (select clock : Level) : Prop where
  initDone : s.initDone = true
  modes    : s.modes = initModes
  select   : s.lines.select = .val select
  clock    : s.lines.clock = .val clock

/-- Bit i of `b` is being sent: TXB holds `b` and DATA_OUT its bit i (R110, R115). -/
structure State.Sends (s : State) (b : Byte) (i : Fin 8) : Prop where
  txb     : s.txb = .val b
  dataOut : s.lines.dataOut = .val (level (b.getLsbD i.val))

/-- What each sequencer position says of the rest of the state. No state rests at an operation's last position (R35). -/
def State.MatchesSeq (s : State) : Prop :=
  match s.seq with
  | .idle => (s.initDone = false → s.trace = []) ∧ (s.initDone = true → s.Driven .high .high)
  | .init k => k ≠ 5 ∧ (s.initDone = true → s.Driven .high .high) ∧
      s.modes.select = .output ∧ (1 ≤ k → s.lines.select = .val .high) ∧
      (2 ≤ k → s.modes.clock = .output) ∧ (3 ≤ k → s.lines.clock = .val .high) ∧
      (4 ≤ k → s.modes.dataOut = .output)
  | .xfer b i st => ¬(i = 0 ∧ st = .s6) ∧ s.Driven .high (clockAfter st) ∧ s.Sends b i
  | .transact t .selAssert => s.Driven .low .high ∧ s.cmd = .val (commandByte t.isRead t.address)
  | .transact t (.byte j i st) => s.Driven .low (clockAfter st) ∧
      s.cmd = .val (commandByte t.isRead t.address) ∧
      s.Sends (frameByte (commandByte t.isRead t.address) t.payload j) i
  | .transact _ .selDeassert => False

/-- The invariant every step keeps. -/
structure State.Inv (s : State) : Prop where
  trace : s.MatchesTrace
  seq   : s.MatchesSeq

/-! ### Stops -/

/-- The state a fault stops BBT in (R152). -/
def Fault.state : Fault → State
  | .notInitialized _ s => s
  | .reentrant _ _ s => s
  | .stuck s => s

/-- The state a refusal leaves; an instruction without a meaning leaves none (R80). -/
def Refusal.state : Refusal → Option State
  | .commandWord _ _ s => some s
  | .wireByte _ s => some s
  | _ => none

/-- Run a fixed number of sequencer steps of the operation in progress, stopping when it has returned (R22). -/
def advanceN : Nat → State → Result
  | 0, s => .next s
  | n + 1, s =>
    if s.isBusy then
      match advance s with
      | .next s' => advanceN n s'
      | .fault f => .fault f
      | .refused r => .refused r
    else .next s

end Sys2Proof.Machine
end

