-- ==== Sys2Proof/Certificates/Slice0/Obligations.lean ====
section
/-! DEFINITION. The statements about BBT, from the numbered rules of spec/. A statement about a next state that has no
hypothesis on the second agent holds whatever calls of one are still to come. -/

open Sys2Proof Sys2Proof.Machine

/-! ### Encoding -/

/-- Decoding the encoding of a well-formed instruction gives it back, for every operand value the encoding admits. -/
def Obligations.DecodeEncodeRoundTrip : Prop :=
  ∀ i : Instr, i.wellFormed = true → decode (encode i) = .instr i

/-- A code has one meaning: what decodes to an instruction is that instruction's encoding, and the instruction is
well formed (R83). -/
def Obligations.CodeHasOneMeaning : Prop :=
  ∀ (c : Code) (i : Instr), decode c = .instr i → encode i = c ∧ i.wellFormed = true

/-- R79: the operands are the named bits of the word, as they stand. -/
def Obligations.OperandsAreTheNamedBits : Prop :=
  ∀ (w : Hcw) (i : Instr), decodeHcw w = .instr i →
    match hostOpOf i with
    | some .init => True
    | some (.xfer b) => b = w.extractLsb' 0 8
    | some (.transact t) =>
        t.address = w.extractLsb' 32 7 ∧ t.isRead = w.getLsbD 40 ∧ t.payload = w.extractLsb' 0 32
    | none => False

/-- R80: a word is refused exactly where OP is none of 0, 1, 2 or a must-be-zero bit of R77 is 1; the host's issue of
it changes nothing but the mark that names it, in any state with SEQ Idle, stopped or not (R157), and no step removes a
mark. That the word is off the host's program is the model's choice (log entry 2), and so is the mark's form, a list of
the words refused (log entry 13). -/
def Obligations.RefusedHostWords : Prop :=
  (∀ w : Hcw, (∃ why, decodeHcw w = .reject why) ↔
      (w.extractLsb' 44 4 ≠ 0#4 ∧ w.extractLsb' 44 4 ≠ 1#4 ∧ w.extractLsb' 44 4 ≠ 2#4) ∨
      (w.extractLsb' 44 4 = 0#4 ∧ ∃ k, k < 44 ∧ w.getLsbD k = true) ∨
      (w.extractLsb' 44 4 = 1#4 ∧ ∃ k, 8 ≤ k ∧ k < 44 ∧ w.getLsbD k = true) ∨
      (w.extractLsb' 44 4 = 2#4 ∧
        (w.getLsbD 43 = true ∨ w.getLsbD 42 = true ∨ w.getLsbD 41 = true ∨ w.getLsbD 39 = true))) ∧
  (∀ (s : State) (w : Hcw) (rest : List Hcw) (why : Reject),
    s.seq = .idle → s.program = w :: rest → decodeHcw w = .reject why →
      step s = .refused (.commandWord why w { s with program := rest, refusals := s.refusals ++ [w] })) ∧
  (∀ s t : State, step s = .next t → t.refusals = s.refusals)

/-- R78, R80, R157: an address of 0x80 or more is refused, as an operand in every state and as a word with bit 39 set; it
is never masked to 7 bits. That the operand is kept as 8 bits, and refused as the word with bit 39 set before any check of
state, is the model's choice, log entry 12; the mark's form is log entry 13. -/
def Obligations.WideAddressRefused : Prop :=
  (∀ (a : BitVec 8) (p : Word) (s : State), 0x80 ≤ a.toNat →
    (∃ w : Hcw, w.getLsbD 39 = true ∧
      exec (.transactW a p) s = .refused (.commandWord .addressRange w { s with refusals := s.refusals ++ [w] })) ∧
    (∃ w : Hcw, w.getLsbD 39 = true ∧
      exec (.transactR a p) s = .refused (.commandWord .addressRange w { s with refusals := s.refusals ++ [w] }))) ∧
  (∀ w : Hcw, w.getLsbD 39 = true → ∃ why, decodeHcw w = .reject why)

/-- R83: the match and mask of each opcode-table row, and a host word matches at most one row and is refused if it
matches none. -/
def Obligations.OpcodeMapRows : Prop :=
  (∀ w : Hcw,
    (decodeHcw w = .instr .init ↔ w &&& 0xFFFFFFFFFFFF = 0x000000000000) ∧
    ((∃ b, decodeHcw w = .instr (.xfer b)) ↔ w &&& 0xFFFFFFFFFF00 = 0x100000000000) ∧
    ((∃ a p, decodeHcw w = .instr (.transactW a p)) ↔ w &&& 0xFF8000000000 = 0x200000000000) ∧
    ((∃ a p, decodeHcw w = .instr (.transactR a p)) ↔ w &&& 0xFF8000000000 = 0x210000000000) ∧
    ((∃ why, decodeHcw w = .reject why) ↔
      w &&& 0xFFFFFFFFFFFF ≠ 0x000000000000 ∧ w &&& 0xFFFFFFFFFF00 ≠ 0x100000000000 ∧
      w &&& 0xFF8000000000 ≠ 0x200000000000 ∧ w &&& 0xFF8000000000 ≠ 0x210000000000)) ∧
  (∀ b : Byte, ((∃ a, decodeWire b = .cmdWrite a) ↔ b &&& 0x80 = 0x00) ∧
    ((∃ a, decodeWire b = .cmdRead a) ↔ b &&& 0x80 = 0x80))

/-- R71, R72: bit 7 of the command byte is isRead and bits 6..0 are the address, and it is
`zext_8(address) | (isRead ? READ_FLAG : 0x00)`. -/
def Obligations.CommandByteFields : Prop :=
  ∀ (isRead : Bool) (a : Addr7),
    commandByte isRead a = a.setWidth 8 ||| (if isRead then 0x80#8 else 0x00#8) ∧
    (commandByte isRead a).getLsbD 7 = isRead ∧ (commandByte isRead a).extractLsb' 0 7 = a ∧
    decodeWire (commandByte isRead a) = if isRead then .cmdRead a else .cmdWrite a

/-- R87: the worked encodings and the words it lists as refused. -/
def Obligations.WorkedEncodings : Prop :=
  encode .init = .hcw 0x000000000000 ∧ decodeHcw 0x000000000000 = .instr .init ∧
  encode (.xfer 0xA5) = .hcw 0x1000000000A5 ∧ decodeHcw 0x1000000000A5 = .instr (.xfer 0xA5) ∧
  encode (.transactW 0x21 0x12345678) = .hcw 0x202112345678 ∧
  decodeHcw 0x202112345678 = .instr (.transactW 0x21 0x12345678) ∧ commandByte false 0x21 = 0x21 ∧
  encode (.transactR 0x21 0x00000000) = .hcw 0x212100000000 ∧
  decodeHcw 0x212100000000 = .instr (.transactR 0x21 0x00000000) ∧ commandByte true 0x21 = 0xA1 ∧
  decodeHcw 0x200000000000 = .instr (.transactW 0x00 0x00000000) ∧ commandByte false 0x00 = 0x00 ∧
  decodeHcw 0x217FFFFFFFFF = .instr (.transactR 0x7F 0xFFFFFFFF) ∧ commandByte true 0x7F = 0xFF ∧
  decodeHcw 0x207FFFFFFFFF = .instr (.transactW 0x7F 0xFFFFFFFF) ∧ commandByte false 0x7F = 0x7F ∧
  decodeHcw 0x208000000000 = .reject .addressRange ∧ decodeHcw 0x300000000000 = .reject (.reservedOp 3) ∧
  decodeHcw 0x000000000001 = .reject .mustBeZero ∧ decodeHcw 0x100000000100 = .reject .mustBeZero ∧
  decodeHcw 0x220000000000 = .reject .mustBeZero

/-! ### What a step runs -/

/-- With SEQ Idle a step runs the instruction the host's next word decodes to, that word taken off the program; with
SELECT just asserted it runs the wire instruction the command byte decodes to. -/
def Obligations.StepRunsDecodedInstruction : Prop :=
  (∀ (s : State) (w : Hcw) (rest : List Hcw) (i : Instr),
    s.seq = .idle → s.program = w :: rest → decodeHcw w = .instr i → step s = exec i { s with program := rest }) ∧
  (∀ (s : State) (t : Transaction) (b : Byte),
    s.seq = .transact t .selAssert → s.cmd = .val b → step s = exec (decodeWire b) s)

/-- With SEQ Idle, nothing left to issue and no fault, a step changes nothing: nothing outside the host's call starts a
step of BBT (R158). That this is a next state and no stop is the model's choice, log entry 10. -/
def Obligations.StepWaitsForTheHost : Prop :=
  ∀ s : State, s.seq = .idle → s.program = [] → s.fault = [] → step s = .next s

/-- While an operation is in progress at any position but the one before the command byte, and no second agent calls, a
step performs the position after it (R22, R35). -/
def Obligations.BusyStepPerformsNextPosition : Prop :=
  ∀ (s : State) (p : Seq), s.fault = [] → s.overlaps = [] → s.seq.next = some p →
    (∀ t, s.seq ≠ .transact t .selAssert) → step s = .next (perform p s)

/-- R35: an operation's positions are one fixed list from its first, each followed by the next with none skipped or
repeated, 6, 48 or 242 of them, and after the last SEQ is Idle. -/
def Obligations.PositionsInFixedOrder : Prop :=
  ∀ op : HostOp,
    op.positions.head? = some (match op with
      | .init => .init 0
      | .xfer b => .xfer b 7 .s1
      | .transact t => .transact t .selAssert) ∧
    (∀ k, (op.positions[k]?).bind Seq.next = op.positions[k + 1]?) ∧
    op.positions.Nodup ∧ Seq.idle ∉ op.positions ∧
    op.positions.length = (match op with | .init => 6 | .xfer _ => 48 | .transact _ => 242) ∧
    (∀ p s, op.positions.getLast? = some p → (perform p s).seq = .idle) ∧
    (∀ p q s, p ∈ op.positions → p.next = some q → (perform p s).seq = p)

/-- An operation that passes its entry check is its sequencer steps, one after the other (R22, R35): its first position,
then one step for each of the others, a second agent's call landing between them or not. That exec runs the operation
whole while a busy step performs one position is the model's choice, log entry 1, and when a call lands is log entry 9. -/
def Obligations.OperationIsItsSteps : Prop :=
  ∀ (op : HostOp) (s : State), entryCheck op s = none →
    ∃ p rest, op.positions = p :: rest ∧
      issue op s = advanceN rest.length (perform p (countdown (openCall op s)))

/-! ### Entry checks, faults and stops -/

/-- R154: what the host's issue of an operation meets, in the order of the entry check: BBT stopped by an earlier fault;
`Reentrant` while an operation is in progress (R156); `NotInitialized` before an INIT has completed (R155); and otherwise
the operation starts, and runs to its end where no second agent calls. A fault changes nothing but FAULT: no event, no
line. -/
def Obligations.EntryCheckOrder : Prop :=
  ∀ (i : Instr) (op : HostOp) (s : State), hostOpOf i = some op →
    (s.fault ≠ [] → exec i s = .fault (.stuck s)) ∧
    (s.fault = [] → s.seq ≠ .idle →
      exec i s = .fault (.reentrant op s.seq { s with fault := [.reentrant op s.seq] })) ∧
    (s.fault = [] → s.seq = .idle → op ≠ .init → s.initDone = false →
      exec i s = .fault (.notInitialized op { s with fault := [.notInitialized op] })) ∧
    (s.fault = [] → s.seq = .idle → op = .init ∨ s.initDone = true → entryCheck op s = none ∧
      (s.overlaps = [] → ∃ t, exec i s = .next t))

/-- While FAULT is not empty BBT takes no step (R36, R152): with no second agent's call due, a wire command byte stops
with nothing changed, and so does every step that does not refuse the host's next word first (R157). That an issued word
is off the host's program, and that a call waits while SEQ is Idle, are the model's choices (log entries 2 and 9). -/
def Obligations.StoppedTakesNoStep : Prop :=
  ∀ s : State, s.fault ≠ [] →
    ((s.seq = .idle ∨ ∀ w rest, s.overlaps ≠ { after := 0, word := w } :: rest) →
      (∀ a, exec (.cmdWrite a) s = .fault (.stuck s) ∧ exec (.cmdRead a) s = .fault (.stuck s)) ∧
      (s.seq ≠ .idle ∨ s.program = [] → step s = .fault (.stuck s))) ∧
    (∀ w rest i, s.seq = .idle → s.program = w :: rest → decodeHcw w = .instr i →
      step s = .fault (.stuck { s with program := rest }))

/-- R157 for a second agent's call that is due while an operation is in progress: a word that spells no operation is
refused, also where BBT is stopped, with nothing changed but the mark; otherwise a stopped BBT is stuck; otherwise the
call raises `Reentrant` (R156). That the call is off the list of those to come is the model's choice (log entry 9). -/
def Obligations.DueCallOutcome : Prop :=
  ∀ (s : State) (w : Hcw) (rest : List Overlap), s.seq ≠ .idle → s.overlaps = { after := 0, word := w } :: rest →
    (∀ why, decodeHcw w = .reject why →
      step s = .refused (.commandWord why w { s with overlaps := rest, refusals := s.refusals ++ [w] })) ∧
    (∀ i op, decodeHcw w = .instr i → hostOpOf i = some op →
      (s.fault ≠ [] → step s = .fault (.stuck { s with overlaps := rest })) ∧
      (s.fault = [] → step s = .fault (.reentrant op s.seq
        { s with overlaps := rest, fault := [.reentrant op s.seq] })))

/-- R153: a second agent's call that lands after `m` steps of an operation raises Reentrant there. The operation in
progress stops where it stands: its events are the first of the run nobody interrupts, SEQ is the position it had
reached, FAULT holds exactly that reason, and the host's program and the refusal marks are as they were. When a call lands
(`m = max 1 n`), and that it is off the list of those to come, are the model's choices, log entry 9. -/
def Obligations.OverlapStopsTheOperation : Prop :=
  ∀ (op op' : HostOp) (s t : State) (n m : Nat) (w : Hcw) (i : Instr) (rest : List Overlap) (p : Seq),
    s.overlaps = { after := n, word := w } :: rest → decodeHcw w = .instr i → hostOpOf i = some op' →
    issue op { s with overlaps := [] } = .next t →
    m = max 1 n → m < op.positions.length → op.positions[m - 1]? = some p →
    ∃ stopped, issue op s = .fault (.reentrant op' p stopped) ∧
      stopped.fault = [.reentrant op' p] ∧ stopped.seq = p ∧ stopped.overlaps = rest ∧
      stopped.trace = t.trace.take (s.trace.length + 1 + m) ∧ stopped.program = s.program ∧
      stopped.refusals = s.refusals

/-- R36, R152: `raise Fault(r)` adds r and removes none, and changes nothing else. -/
def Obligations.RaiseAddsItsReason : Prop :=
  ∀ (r : FaultReason) (s : State),
    r ∈ (raiseFault r s).fault ∧ s.fault ⊆ (raiseFault r s).fault ∧
    (∀ r' ∈ (raiseFault r s).fault, r' = r ∨ r' ∈ s.fault) ∧
    { raiseFault r s with fault := s.fault } = s

/-! ### Line primitives and the datapath -/

/-- R91: `LineWrite(l, v)` sets `line[l]` to v, leaves the other lines and every mode as they were, and appends its
event; R90 and R93 say the same of `LineMode` and `DelayUs`. -/
def Obligations.LinePrimitives : Prop :=
  (∀ (l l' : OutLine) (v : Level) (s : State),
    (lineWrite l v s).line l' = (if l' = l then .val v else s.line l') ∧
    (lineWrite l v s).modes = s.modes ∧ (lineWrite l v s).trace = s.trace ++ [.write l v]) ∧
  (∀ (l l' : Line) (m : Mode) (s : State),
    (lineMode l m s).mode l' = (if l' = l then m else s.mode l') ∧
    (lineMode l m s).lines = s.lines ∧ (lineMode l m s).trace = s.trace ++ [.mode l m]) ∧
  (∀ (t : Duration) (s : State), delayUs t s = { s with trace := s.trace ++ [.delay t] })

/-- R92: a LineRead records the level it returns and changes no line level. The level is the next one the environment
has fixed, and otherwise the oracle's answer to the whole trace so far (R23). -/
def Obligations.LineReadAsksTheDevice : Prop :=
  (∀ s : State, lineRead s =
    { s with trace := s.trace ++ [.read s.answer], dataIn := s.dataIn.tail, draws := s.draws + 1 }) ∧
  (∀ s : State, s.dataIn = [] → s.answer = Config.device s.trace s.draws) ∧
  (∀ (s : State) (v : Level) (rest : List Level), s.dataIn = v :: rest → s.answer = v)

/-- R94: `level` and `bit` are inverses, and 1 is High. -/
def Obligations.LevelAndBitInverse : Prop :=
  level true = .high ∧ level false = .low ∧ (∀ b, bit (level b) = b) ∧ (∀ v, level (bit v) = v)

/-- R132: four accumulations shift every initial bit out, and leave R1 : R2 : R3 : R4. -/
def Obligations.AccumulatorForgetsItsStart : Prop :=
  ∀ (acc : Word) (r1 r2 r3 r4 : Byte),
    let result := accumulate (accumulate (accumulate (accumulate acc r1) r2) r3) r4
    result.extractLsb' 24 8 = r1 ∧ result.extractLsb' 16 8 = r2 ∧ result.extractLsb' 8 8 = r3 ∧
      result.extractLsb' 0 8 = r4

/-- R114: eight bit writes, one for each index, leave those bits, whatever RXB held before. -/
def Obligations.ReceivedByteForgetsItsStart : Prop :=
  ∀ (x y : Byte), bitIndices.foldl (fun rxb i => setBit rxb i (y.getLsbD i.val)) x = y

/-! ### What each operation does: completion, result and frame -/

/-- R97, R44: INIT, from any state in which it may run, sets the four modes and the idle levels and INIT_DONE, appends
its six events, leaves DATA_OUT alone, and changes nothing else. The order of the six is the spec's own choice, followed
here (D5, log entry 16): the trace clause rests on it, the state INIT leaves (R44) does not. -/
def Obligations.InitCompletes : Prop :=
  ∀ s : State, s.ReadyForInit →
    exec .init s = .next { s with
      modes := { clock := .output, dataOut := .output, dataIn := .input Config.dinPull, select := .output }
      lines := { clock := .val .high, dataOut := s.lines.dataOut, select := .val .high }
      initDone := true
      seq := .idle
      trace := s.trace ++ [.call .init] ++
        [.mode .select .output, .write .select .high, .mode .clock .output, .write .clock .high, .mode .dataOut .output,
         .mode .dataIn (.input Config.dinPull)] ++ [.ret .init .none] }

/-- R112, R113: XFER sends its byte and returns the byte made of the eight levels sampled, the first being bit 7; the
events are the call, the 48 of the byte shift and the return. SELECT, the modes, INIT_DONE, CMD, STAT and ACC stay. That
eight of the environment's levels are used up is the model's own (log entry 3). -/
def Obligations.XferCompletes : Prop :=
  ∀ (s : State) (b : Byte), s.Ready →
    ∃ r : Byte, exec (.xfer b) s = .next { s with
      lines := { clock := .val .high, dataOut := .val (level (b.getLsbD 0)), select := s.lines.select }
      txb := .val b
      rxb := .val r
      seq := .idle
      trace := s.trace ++ [.call (.xfer b)] ++ byteEvents b r ++ [.ret .xfer (.byte r)]
      dataIn := s.dataIn.drop 8
      draws := s.draws + 8 }

/-- R128: TRANSACT_W sends the command byte `0 : address` and the payload in one frame, discards the byte sampled
during the command byte into STAT, and returns the 32 bits sampled during the payload. That 40 of the environment's
levels are used up is the model's own (log entry 3). -/
def Obligations.TransactWriteCompletes : Prop :=
  ∀ (s : State) (a : Addr7) (p : Word), s.Ready →
    ∃ (stat : Byte) (r : Word), exec (.transactW (a.setWidth 8) p) s = .next { s with
      lines := { clock := .val .high, dataOut := .val (level (p.getLsbD 0)), select := .val .high }
      txb := .val (p.extractLsb' 0 8)
      rxb := .val (r.extractLsb' 0 8)
      cmd := .val (0#1 ++ a)
      stat := .val stat
      acc := .val r
      seq := .idle
      trace := s.trace ++ [.call (.transact ⟨a, p, false⟩)] ++ frameEvents (0#1 ++ a) p stat r ++
        [.ret .transactW (.word r)]
      dataIn := s.dataIn.drop 40
      draws := s.draws + 40 }

/-- R129: TRANSACT_R sends the command byte `1 : address` and the payload as given, and returns the 32 bits sampled
during the payload. That 40 of the environment's levels are used up is the model's own (log entry 3). -/
def Obligations.TransactReadCompletes : Prop :=
  ∀ (s : State) (a : Addr7) (p : Word), s.Ready →
    ∃ (stat : Byte) (r : Word), exec (.transactR (a.setWidth 8) p) s = .next { s with
      lines := { clock := .val .high, dataOut := .val (level (p.getLsbD 0)), select := .val .high }
      txb := .val (p.extractLsb' 0 8)
      rxb := .val (r.extractLsb' 0 8)
      cmd := .val (1#1 ++ a)
      stat := .val stat
      acc := .val r
      seq := .idle
      trace := s.trace ++ [.call (.transact ⟨a, p, true⟩)] ++ frameEvents (1#1 ++ a) p stat r ++
        [.ret .transactR (.word r)]
      dataIn := s.dataIn.drop 40
      draws := s.draws + 40 }

/-- The wire command bytes CMD_WRITE and CMD_READ, right after SELECT has been asserted in the frame whose command byte
they are: the byte shift of frame byte 0, its sample into STAT (R127, R131). The model's reading of the two wire rows,
log entry 11. -/
def Obligations.CommandByteSent : Prop :=
  ∀ (s : State) (t : Transaction) (isRead : Bool) (a : Addr7), s.fault = [] → s.overlaps = [] →
    s.seq = .transact t .selAssert → s.cmd = .val (commandByte isRead a) →
    ∃ stat : Byte, exec (if isRead then .cmdRead a else .cmdWrite a) s = .next { s with
      lines := { clock := .val .high, dataOut := .val (level (a.getLsbD 0)), select := s.lines.select }
      txb := .val (commandByte isRead a)
      rxb := .val stat
      stat := .val stat
      seq := .transact t (.byte 0 0 .s6)
      trace := s.trace ++ byteEvents (commandByte isRead a) stat
      dataIn := s.dataIn.drop 8
      draws := s.draws + 8 }

/-- A wire command byte anywhere else is refused with nothing changed: BBT never decodes it (R81, R83). The model's
reading of the two wire rows, log entry 11. -/
def Obligations.CommandByteElsewhereRefused : Prop :=
  ∀ (s : State) (isRead : Bool) (a : Addr7), s.fault = [] →
    ((∀ t, s.seq ≠ .transact t .selAssert) ∨ ∃ b, s.cmd = .val b ∧ b ≠ commandByte isRead a) →
    exec (if isRead then .cmdRead a else .cmdWrite a) s = .refused (.wireByte (commandByte isRead a) s)

/-- R113 and R53 for levels the environment has fixed: the k-th sample is bit 7 - k of the byte XFER returns, whatever
byte it sends. -/
def Obligations.XferReturnsTheSamples : Prop :=
  ∀ (s : State) (b r : Byte) (rest : List Level), s.Ready → s.dataIn = wireLevels r ++ rest →
    ∃ t, exec (.xfer b) s = .next t ∧ t.dataIn = rest ∧ t.trace.getLast? = some (.ret .xfer (.byte r))

/-- R130, R131 for levels the environment has fixed: the first eight samples are discarded and the next 32 are the
result, most significant first, for a write as for a read. -/
def Obligations.TransactReturnsTheSamples : Prop :=
  ∀ (s : State) (a : Addr7) (p r : Word) (stat : Byte) (rest : List Level), s.Ready →
    s.dataIn = wireLevels stat ++ wireLevels r ++ rest →
    (∃ t, exec (.transactW (a.setWidth 8) p) s = .next t ∧ t.dataIn = rest ∧ t.stat = .val stat ∧
      t.trace.getLast? = some (.ret .transactW (.word r))) ∧
    (∃ t, exec (.transactR (a.setWidth 8) p) s = .next t ∧ t.dataIn = rest ∧ t.stat = .val stat ∧
      t.trace.getLast? = some (.ret .transactR (.word r)))

/-- R98: INIT twice in a row leaves the same modes, lines, INIT_DONE and SEQ as once, and only appends its events
again. -/
def Obligations.InitIdempotent : Prop :=
  ∀ s : State, s.ReadyForInit → ∃ t u, exec .init s = .next t ∧ exec .init t = .next u ∧
    u = { t with trace := t.trace ++ t.trace.drop s.trace.length } ∧ u.lines.dataOut = s.lines.dataOut

/-- Frames, whatever calls of a second agent are still to come: what each instruction leaves as it was when it answers a
next state. -/
def Obligations.InstructionFrames : Prop :=
  ∀ s t : State,
    (exec .init s = .next t → t.lines.dataOut = s.lines.dataOut ∧ t.txb = s.txb ∧ t.rxb = s.rxb ∧ t.cmd = s.cmd ∧
      t.stat = s.stat ∧ t.acc = s.acc ∧ t.dataIn = s.dataIn ∧ t.draws = s.draws) ∧
    (∀ b, exec (.xfer b) s = .next t → t.modes = s.modes ∧ t.lines.select = s.lines.select ∧
      t.initDone = s.initDone ∧ t.cmd = s.cmd ∧ t.stat = s.stat ∧ t.acc = s.acc) ∧
    (∀ a p, exec (.transactW a p) s = .next t → t.modes = s.modes ∧ t.initDone = s.initDone) ∧
    (∀ a p, exec (.transactR a p) s = .next t → t.modes = s.modes ∧ t.initDone = s.initDone) ∧
    (∀ a, exec (.cmdWrite a) s = .next t ∨ exec (.cmdRead a) s = .next t → t.modes = s.modes ∧
      t.lines.select = s.lines.select ∧ t.initDone = s.initDone ∧ t.cmd = s.cmd ∧ t.acc = s.acc) ∧
    (∀ i, exec i s = .next t → t.fault = s.fault ∧ t.program = s.program ∧ t.refusals = s.refusals)

/-! ### Rules over all steps -/

/-- R26: `mode[]` is written only inside INIT: a step that changes a mode has an INIT in progress or runs one. -/
def Obligations.ModesWrittenOnlyByInit : Prop :=
  ∀ s t : State, step s = .next t → t.modes ≠ s.modes →
    (∃ k, s.seq = .init k) ∨
    (s.seq = .idle ∧ ∃ w rest, s.program = w :: rest ∧ decodeHcw w = .instr .init)

/-- R30: INIT sets INIT_DONE and no step clears it. -/
def Obligations.InitDoneNeverCleared : Prop :=
  ∀ s t : State, step s = .next t → s.initDone = true → t.initDone = true

/-- R37: every step only appends to TRACE, and every stop leaves it an extension too. -/
def Obligations.TraceOnlyGrows : Prop :=
  ∀ s t : State, (step s = .next t → s.trace <+: t.trace) ∧
    (∀ f, step s = .fault f → s.trace <+: f.state.trace) ∧
    (∀ r, step s = .refused r → r.state = some t → s.trace <+: t.trace)

/-- R36: nothing removes a fault reason, and no next state has one that was not there. -/
def Obligations.FaultsNeverRemoved : Prop :=
  ∀ s : State, (∀ t, step s = .next t → t.fault = s.fault) ∧
    (∀ f, step s = .fault f → s.fault ⊆ f.state.fault ∧ f.state.fault ≠ []) ∧
    (∀ r t, step s = .refused r → r.state = some t → t.fault = s.fault)

/-- R173: no operation returns BBT to its reset state. -/
def Obligations.NoReturnToReset : Prop :=
  ∀ (i : Instr) (s t : State), exec i s = .next t → t ≠ State.reset

/-- R28: each read of DATA_IN is a fresh answer: what an instruction draws is one level for each Read event it
appends. The draw count and the list of fixed levels are the model's own (log entry 3). -/
def Obligations.EveryReadIsFresh : Prop :=
  ∀ (i : Instr) (s t : State), exec i s = .next t →
    ∃ es, t.trace = s.trace ++ es ∧ t.draws = s.draws + readCount es ∧ t.dataIn = s.dataIn.drop (readCount es)

/-- The five datapath registers are dead between operations (R33): two states that differ in nothing else give, for a
host operation, the same events, the same returned value and the same of everything but those registers. -/
def Obligations.DatapathDeadBetweenOperations : Prop :=
  ∀ (i : Instr) (s : State) (txb rxb cmd stat : Held Byte) (acc : Held Word) (t : State), hostOpOf i ≠ none →
    exec i s = .next t →
    ∃ t', exec i { s with txb := txb, rxb := rxb, cmd := cmd, stat := stat, acc := acc } = .next t' ∧
      { t' with txb := t.txb, rxb := t.rxb, cmd := t.cmd, stat := t.stat, acc := t.acc } = t

/-! ### The events of the operations -/

/-- R120: the event counts of a byte shift. -/
def Obligations.XferEventCounts : Prop :=
  ∀ (b : Byte) (s t : State), exec (.xfer b) s = .next t →
    ∃ es v, t.trace = s.trace ++ [.call (.xfer b)] ++ es ++ [.ret .xfer v] ∧ es.length = 48 ∧
      (es.countP fun e => e == .write .dataOut .low || e == .write .dataOut .high) = 8 ∧
      (es.filter fun e => e == .write .clock .low || e == .write .clock .high) =
        (List.replicate 8 [.write .clock .low, .write .clock .high]).flatten ∧
      readCount es = 8 ∧ es.count (.delay .tSettle) = 16

/-- R136 and R133: the event counts of a TRANSACT, and its one SELECT pair around everything else. -/
def Obligations.TransactEventCounts : Prop :=
  ∀ (a : BitVec 8) (p : Word) (s t : State),
    (exec (.transactW a p) s = .next t ∨ exec (.transactR a p) s = .next t) →
    ∃ c n v es, t.trace = s.trace ++ [.call c, .write .select .low] ++ es ++ [.write .select .high, .ret n v] ∧
      es.length = 240 ∧ es.count (.write .select .low) = 0 ∧ es.count (.write .select .high) = 0 ∧
      (es.countP fun e => e == .write .dataOut .low || e == .write .dataOut .high) = 40 ∧
      (es.filter fun e => e == .write .clock .low || e == .write .clock .high) =
        (List.replicate 40 [.write .clock .low, .write .clock .high]).flatten ∧
      readCount es = 40 ∧ es.count (.delay .tSettle) = 80

/-- R101: every CLOCK event of INIT happens while `line[SELECT] = High`. This rests on INIT's internal order, the spec's
own choice, followed here (D5, log entry 16). -/
def Obligations.InitClocksWithSelectHigh : Prop :=
  ∀ (s t : State) (before after : List Event) (e : Event), exec .init s = .next t →
    t.trace = s.trace ++ before ++ e :: after → ((∃ m, e = .mode .clock m) ∨ ∃ v, e = .write .clock v) →
    lastWrite .select (s.trace ++ before) = .val .high

/-- R116: DATA_IN is sampled immediately after the active edge: each read an instruction does comes right after
`Write(CLOCK, Low)`. -/
def Obligations.ReadRightAfterActiveEdge : Prop :=
  ∀ (i : Instr) (s t : State) (before after : List Event) (v : Level), exec i s = .next t →
    t.trace = s.trace ++ before ++ .read v :: after → before.getLast? = some (.write .clock .low)

/-- R115: DATA_OUT is written only while CLOCK is High. -/
def Obligations.DataOutChangesWithClockHigh : Prop :=
  ∀ (i : Instr) (s t : State) (before after : List Event) (v : Level), s.MatchesTrace → s.lines.clock = .val .high →
    exec i s = .next t → t.trace = s.trace ++ before ++ .write .dataOut v :: after →
    lastWrite .clock (s.trace ++ before) = .val .high

/-- R134, R135: from SELECT asserted to the first active edge there are one DATA_OUT write, of the command byte's bit 7,
and one settle interval; from the last inactive edge to SELECT de-asserted there is nothing. -/
def Obligations.SelectEdges : Prop :=
  (∀ (a : Addr7) (p : Word) (s t : State), exec (.transactW (a.setWidth 8) p) s = .next t →
    ∃ es v, t.trace = s.trace ++ [.call (.transact ⟨a, p, false⟩), .write .select .low, .write .dataOut .low,
      .delay .tSettle, .write .clock .low] ++ es ++ [.write .clock .high, .write .select .high, .ret .transactW v]) ∧
  (∀ (a : Addr7) (p : Word) (s t : State), exec (.transactR (a.setWidth 8) p) s = .next t →
    ∃ es v, t.trace = s.trace ++ [.call (.transact ⟨a, p, true⟩), .write .select .low, .write .dataOut .high,
      .delay .tSettle, .write .clock .low] ++ es ++ [.write .clock .high, .write .select .high, .ret .transactR v])

/-- R190, R185: the lower bounds on time that the delays make: 2 settle intervals for a bit slot, 16 for XFER, 80 for
TRANSACT, and none for INIT. -/
def Obligations.SettleTimeBounds : Prop :=
  (∀ b v, minTime (slotEvents b v) = 2 * Config.tSettle) ∧
  (∀ s t : State,
    (exec .init s = .next t → minTime (t.trace.drop s.trace.length) = 0) ∧
    (∀ b, exec (.xfer b) s = .next t → minTime (t.trace.drop s.trace.length) = 16 * Config.tSettle) ∧
    (∀ a p, exec (.transactW a p) s = .next t → minTime (t.trace.drop s.trace.length) = 80 * Config.tSettle) ∧
    (∀ a p, exec (.transactR a p) s = .next t → minTime (t.trace.drop s.trace.length) = 80 * Config.tSettle))

/-- R55: a device that latches DATA_OUT at each active edge while SELECT is Low sees one more frame, the 40 bits of
`CMD : payload`, most significant first. -/
def Obligations.DeviceSeesTheFrame : Prop :=
  ∀ (a : Addr7) (p : Word) (s t : State),
    (exec (.transactW (a.setWidth 8) p) s = .next t → (latched t.trace).inFrame = false ∧
      (latched t.trace).frames = (latched s.trace).frames ++ [wireBits (0#1 ++ a) ++ wireBits p]) ∧
    (exec (.transactR (a.setWidth 8) p) s = .next t → (latched t.trace).inFrame = false ∧
      (latched t.trace).frames = (latched s.trace).frames ++ [wireBits (1#1 ++ a) ++ wireBits p])

/-- R137, R189: the kinds and order of the events of XFER and of TRANSACT do not depend on the operands, on the levels
sampled, on the state, nor for TRANSACT on its form. -/
def Obligations.EventShapeIndependentOfData : Prop :=
  ∀ s s' t t' : State,
    (∀ b b', exec (.xfer b) s = .next t → exec (.xfer b') s' = .next t' →
      (t.trace.drop s.trace.length).map Event.shape = (t'.trace.drop s'.trace.length).map Event.shape) ∧
    (∀ a p a' p', (exec (.transactW a p) s = .next t ∨ exec (.transactR a p) s = .next t) →
      (exec (.transactW a' p') s' = .next t' ∨ exec (.transactR a' p') s' = .next t') →
      (t.trace.drop s.trace.length).map Event.shape = (t'.trace.drop s'.trace.length).map Event.shape)

/-! ### The device's answers -/

/-- R118: against a loopback line XFER returns the byte it sends, for every byte. -/
def Obligations.LoopbackReturnsTheByte : Prop :=
  ∀ (b : Byte) (s : State), s.Ready → ∃ t, exec (.xfer b) s = .next t ∧
    ∀ es, t.trace = s.trace ++ es → follows loopback s.trace es = true →
      t.trace.getLast? = some (.ret .xfer (.byte b))

/-- R119, R141: a stuck DATA_IN makes every XFER return 0x00 or 0xFF and every TRANSACT 0x00000000 or 0xFFFFFFFF, and
nothing is raised. -/
def Obligations.StuckLineReadsConstant : Prop :=
  ∀ (v : Level) (s : State), s.Ready →
    (∀ b, ∃ t, exec (.xfer b) s = .next t ∧ t.fault = [] ∧
      ∀ es, t.trace = s.trace ++ es → follows (stuckAt v) s.trace es = true →
        t.trace.getLast? = some (.ret .xfer (.byte (if v = .high then 0xFF else 0x00)))) ∧
    (∀ (a : Addr7) p, ∃ t, exec (.transactW (a.setWidth 8) p) s = .next t ∧ t.fault = [] ∧
      ∀ es, t.trace = s.trace ++ es → follows (stuckAt v) s.trace es = true →
        t.trace.getLast? = some (.ret .transactW (.word (if v = .high then 0xFFFFFFFF else 0x00000000)))) ∧
    (∀ (a : Addr7) p, ∃ t, exec (.transactR (a.setWidth 8) p) s = .next t ∧ t.fault = [] ∧
      ∀ es, t.trace = s.trace ++ es → follows (stuckAt v) s.trace es = true →
        t.trace.getLast? = some (.ret .transactR (.word (if v = .high then 0xFFFFFFFF else 0x00000000))))

/-- R139: against a device that stores the payload of a write frame at its address and drives the stored register on a
read frame of it, TRANSACT_W a, p and then TRANSACT_R a, 0 returns p. The device is the fixture REGSTORE as the model
writes it, log entry 17. -/
def Obligations.WriteThenReadReturnsTheValue : Prop :=
  ∀ (store : List (Addr7 × Word)) (a : Addr7) (p : Word) (s t u : State) (es : List Event),
    exec (.transactW (a.setWidth 8) p) s = .next t → exec (.transactR (a.setWidth 8) 0) t = .next u →
    u.trace = t.trace ++ es → follows (regStore store) t.trace es = true →
    u.trace.getLast? = some (.ret .transactR (.word p))

/-! ### Reset, the invariant and the run -/

/-- R43: the reset value of every piece of state the spec gives BBT. -/
def Obligations.ResetState : Prop :=
  (∀ l, State.reset.mode l = .unconfigured) ∧ (∀ l, State.reset.line l = .undef) ∧ State.reset.initDone = false ∧
  State.reset.txb = .undef ∧ State.reset.rxb = .undef ∧ State.reset.cmd = .undef ∧ State.reset.stat = .undef ∧
  State.reset.acc = .undef ∧ State.reset.seq = .idle ∧ State.reset.fault = [] ∧ State.reset.trace = []

/-- The invariant holds at reset. -/
def Obligations.InvariantAtReset : Prop := State.reset.Inv

/-- Every step keeps the invariant: the lines and modes are what the trace says BBT did (R26, R27, R29), and every
sequencer position has the line levels and registers its rule gives it (R44, R45, R110, R115, R122, R127, R133). -/
def Obligations.StepKeepsInvariant : Prop :=
  ∀ s t : State, s.Inv → step s = .next t → t.Inv

/-- A fault or a refusal leaves a state that meets the invariant too: the operation in progress stands where it stood
(R152, R153). -/
def Obligations.StopKeepsInvariant : Prop :=
  ∀ s : State, s.Inv → (∀ f, step s = .fault f → f.state.Inv) ∧
    (∀ r t, step s = .refused r → r.state = some t → t.Inv)

/-- R45: after an operation, CLOCK and SELECT are High, SEQ is Idle, and DATA_OUT holds the level last driven. -/
def Obligations.BetweenOperations : Prop :=
  ∀ (i : Instr) (s t : State), s.Inv → hostOpOf i ≠ none → exec i s = .next t →
    t.seq = .idle ∧ t.lines.clock = .val .high ∧ t.lines.select = .val .high ∧
      t.lines.dataOut = lastWrite .dataOut t.trace

/-- R193, R194: a finite program of words that spell operations, with INIT done or issued first and nobody else calling,
runs to its end: the state is final, and the trace has grown by 8, 50 or 244 events for each operation. One step for each
word rests on the model's choices of log entries 1 and 2, and `final` on its reading of R193 (b), log entry 18. -/
def Obligations.ProgramRunsToItsEnd : Prop :=
  ∀ (s : State) (ops : List Instr), s.fault = [] → s.seq = .idle → s.overlaps = [] → s.refusals = [] →
    allReturned s.trace = true → s.program.map decodeHcw = ops.map Decoded.instr →
    (s.initDone = true ∨ ops = [] ∨ ops.head? = some .init) →
    ∃ t, Sys2Proof.core.run ops.length s = .next t ∧ t.final = true ∧
      t.trace.length = s.trace.length + (ops.map fun i => match hostOpOf i with
        | some .init => 8
        | some (.xfer _) => 50
        | some (.transact _) => 244
        | none => 0).sum
end

