-- ==== Sys2Proof/Laws/Encoding.lean ====
section
/-! SUPPORT. The bits of the encoder's words, said once: which bit of which operand each bit of the word is (R77). -/

namespace Sys2Proof

/-- INIT's word is all zero. -/
theorem getLsbD_encodeInit (k : Nat) : (0#4 ++ 0#44 : Hcw).getLsbD k = false := by
  rw [show (0#4 ++ 0#44 : Hcw) = 0#48 from rfl, BitVec.getLsbD_zero]

/-- XFER's word: OUTB in bits 7..0, `OP` = 1, all else zero. -/
theorem getLsbD_encodeXfer (b : Byte) (k : Nat) :
    (1#4 ++ 0#36 ++ b : Hcw).getLsbD k = if k < 8 then b.getLsbD k else decide (k = 44) := by
  refine (BitVec.getLsbD_append (x := 1#4 ++ 0#36) (y := b)).trans ?_
  split
  · rfl
  · rw [show (1#4 ++ 0#36 : BitVec 40) = BitVec.twoPow 40 36 from rfl, BitVec.getLsbD_twoPow]
    simp only [show (36 : Nat) < 40 by omega, decide_true, Bool.true_and]
    congr 1
    exact propext (by omega)

/-- TRANSACT's word: PAYLOAD in bits 31..0, the address argument in bits 39..32, RD at bit 40, `OP` = 2, all else
zero. -/
theorem getLsbD_encodeTransact (r : Bool) (a : BitVec 8) (p : Word) (k : Nat) :
    (encodeTransact r a p).getLsbD k =
      if k < 32 then p.getLsbD k else if k < 40 then a.getLsbD (k - 32)
      else if k = 40 then r else decide (k = 45) := by
  unfold encodeTransact
  refine (BitVec.getLsbD_append (x := 2#4 ++ 0#3 ++ BitVec.ofBool r ++ a) (y := p)).trans ?_
  split
  · rfl
  · refine (BitVec.getLsbD_append (x := 2#4 ++ 0#3 ++ BitVec.ofBool r) (y := a)).trans ?_
    by_cases h40 : k < 40
    · rw [if_pos h40, if_pos (by omega)]
    · rw [if_neg h40, if_neg (by omega)]
      refine (BitVec.getLsbD_append (x := 2#4 ++ 0#3) (y := BitVec.ofBool r)).trans ?_
      by_cases h : k = 40
      · rw [if_pos h, if_pos (by omega), h]; cases r <;> rfl
      · rw [if_neg h, if_neg (by omega), show (2#4 ++ 0#3 : BitVec 7) = BitVec.twoPow 7 4 from rfl, BitVec.getLsbD_twoPow]
        simp only [show (4 : Nat) < 7 by omega, decide_true, Bool.true_and]
        congr 1
        exact propext (by omega)

/-- Two words are equal when their bits are; the fields of a word are read this way. -/
theorem extractLsb'_eq_of_bits {n m : Nat} {x : BitVec n} {start : Nat} {y : BitVec m}
    (h : ∀ i, i < m → x.getLsbD (start + i) = y.getLsbD i) : x.extractLsb' start m = y := by
  apply BitVec.eq_of_getLsbD_eq
  intro i hi
  rw [BitVec.getLsbD_extractLsb', h i hi]
  simp [hi]

/-- A bit of a word whose field is known. -/
theorem getLsbD_of_extractLsb' {n m : Nat} {x : BitVec n} {start : Nat} {y : BitVec m} (h : x.extractLsb' start m = y)
    (k : Nat) (h1 : start ≤ k) (h2 : k < start + m) : x.getLsbD k = y.getLsbD (k - start) := by
  rw [← h, BitVec.getLsbD_extractLsb']
  simp [show k - start < m by omega, show start + (k - start) = k by omega]

/-! ### The fields of TRANSACT's word, read back -/

theorem hcwOp_encodeTransact (r : Bool) (a : BitVec 8) (p : Word) : hcwOp (encodeTransact r a p) = 2#4 := by
  apply extractLsb'_eq_of_bits; intro i hi
  rw [getLsbD_encodeTransact]; interval_cases i <;> rfl

theorem mustBeZero_encodeTransact (r : Bool) (a : BitVec 8) (p : Word) :
    (encodeTransact r a p).extractLsb' 41 3 = 0#3 := by
  apply extractLsb'_eq_of_bits; intro i hi
  rw [getLsbD_encodeTransact]; interval_cases i <;> rfl

theorem hcwAddress_encodeTransact (r : Bool) (a : BitVec 8) (p : Word) : hcwAddress (encodeTransact r a p) = a := by
  apply extractLsb'_eq_of_bits; intro i hi
  rw [getLsbD_encodeTransact, if_neg (by omega), if_pos (by omega)]; congr 1; omega

theorem hcwPayload_encodeTransact (r : Bool) (a : BitVec 8) (p : Word) : hcwPayload (encodeTransact r a p) = p := by
  apply extractLsb'_eq_of_bits; intro i hi
  rw [getLsbD_encodeTransact, if_pos (by omega)]; congr 1; omega

theorem hcwRd_encodeTransact (r : Bool) (a : BitVec 8) (p : Word) : hcwRd (encodeTransact r a p) = r := by
  rw [hcwRd, getLsbD_encodeTransact]; rfl

end Sys2Proof
end

