-- ==== Sys2Proof/Laws/Operands.lean ====
section
/-! SUPPORT. What the datapath's computations do: the level map, one bit written, the command byte and the address
operand. -/

namespace Sys2Proof.Machine

/-- `level` and `bit` are inverses (R94). -/
@[simp] theorem bit_level (b : Bool) : bit (level b) = b := by cases b <;> rfl
@[simp] theorem level_bit (v : Level) : level (bit v) = v := by cases v <;> rfl

/-- One bit of the byte is written and the other seven are kept (R110). -/
theorem getLsbD_setBit (x : Byte) (i : Fin 8) (b : Bool) (j : Nat) (hj : j < 8) :
    (setBit x i b).getLsbD j = if j = i.val then b else x.getLsbD j := by
  obtain ⟨i, hi⟩ := i
  cases b <;> interval_cases i <;> interval_cases j <;> simp [setBit]

/-- A byte is the eight bits written into it, whatever it held before (R114). -/
theorem setBit_all (x : Byte) (v : Fin 8 → Bool) (j : Fin 8) :
    (setBit (setBit (setBit (setBit (setBit (setBit (setBit (setBit x 7 (v 7)) 6 (v 6)) 5 (v 5)) 4 (v 4)) 3 (v 3))
      2 (v 2)) 1 (v 1)) 0 (v 0)).getLsbD j.val = v j := by
  simp only [getLsbD_setBit _ _ _ _ j.isLt]
  fin_cases j <;> rfl

/-- The narrowed address is the argument, where it is below 0x80 (R78). -/
theorem narrowAddress_eq_some {a : BitVec 8} {a' : Addr7} : narrowAddress a = some a' ↔ a = a'.setWidth 8 := by
  unfold narrowAddress addressFits
  constructor
  · intro h
    split at h
    · rename_i hm
      cases h
      revert hm a; decide
    · cases h
  · rintro rfl
    revert a'; decide

/-- An address argument of 0x80 or more is none (R78). -/
theorem narrowAddress_eq_none {a : BitVec 8} : narrowAddress a = none ↔ a.msb = true := by
  unfold narrowAddress addressFits
  cases a.msb <;> simp

@[simp] theorem narrowAddress_setWidth (a : Addr7) : narrowAddress (a.setWidth 8) = some a :=
  narrowAddress_eq_some.2 rfl

/-- Bit 7 of the command byte is the read flag and bits 6..0 are the address (R72). -/
theorem commandByte_msb (isRead : Bool) (a : Addr7) : (commandByte isRead a).msb = isRead := by
  revert isRead a; decide
theorem commandByte_address (isRead : Bool) (a : Addr7) : (commandByte isRead a).setWidth 7 = a := by
  revert isRead a; decide

/-- Four bytes as a word, the first highest (R54). -/
def wordOf (r1 r2 r3 r4 : Byte) : Word := r1 ++ r2 ++ r3 ++ r4

theorem getLsbD_wordOf (r1 r2 r3 r4 : Byte) (i : Nat) :
    (wordOf r1 r2 r3 r4).getLsbD i =
      if i < 8 then r4.getLsbD i else if i < 16 then r3.getLsbD (i - 8)
      else if i < 24 then r2.getLsbD (i - 16) else r1.getLsbD (i - 24) := by
  refine (BitVec.getLsbD_append (x := r1 ++ r2 ++ r3) (y := r4)).trans ?_
  rw [BitVec.getLsbD_append, BitVec.getLsbD_append]
  split_ifs <;> first | rfl | omega

/-- Four accumulations leave exactly the four bytes, first byte highest, whatever was there before (R132, R144 (c)). -/
theorem accumulate_all (acc : Word) (r1 r2 r3 r4 : Byte) :
    accumulate (accumulate (accumulate (accumulate acc r1) r2) r3) r4 = wordOf r1 r2 r3 r4 := by
  apply BitVec.eq_of_getLsbD_eq
  intro i hi
  rw [getLsbD_wordOf]
  interval_cases i <;> simp [accumulate]

/-- The four bytes of a word made of four bytes. -/
theorem wordOf_bytes (r1 r2 r3 r4 : Byte) :
    (wordOf r1 r2 r3 r4).extractLsb' 24 8 = r1 ∧ (wordOf r1 r2 r3 r4).extractLsb' 16 8 = r2 ∧
    (wordOf r1 r2 r3 r4).extractLsb' 8 8 = r3 ∧ (wordOf r1 r2 r3 r4).extractLsb' 0 8 = r4 := by
  refine ⟨?_, ?_, ?_, ?_⟩ <;>
  · apply BitVec.eq_of_getLsbD_eq; intro i hi
    rw [BitVec.getLsbD_extractLsb', getLsbD_wordOf]
    interval_cases i <;> simp

/-- The bits of the 40 received: STAT's above the result's (R56). -/
theorem getLsbD_received (stat : Byte) (result : Word) (i : Nat) :
    (stat ++ result : BitVec 40).getLsbD i = if i < 32 then result.getLsbD i else stat.getLsbD (i - 32) :=
  BitVec.getLsbD_append

end Sys2Proof.Machine
end

