-- ==== Sys2Proof/Laws/State.lean ====
section
/-! SUPPORT. One lemma per field per state update of Machine/Ops.lean, so that no later proof unfolds an update. -/

namespace Sys2Proof.Machine

@[simp] theorem State.emit_modes (s : State) (e : Event) : (s.emit e).modes = s.modes := rfl
@[simp] theorem State.emit_lines (s : State) (e : Event) : (s.emit e).lines = s.lines := rfl
@[simp] theorem State.emit_initDone (s : State) (e : Event) : (s.emit e).initDone = s.initDone := rfl
@[simp] theorem State.emit_txb (s : State) (e : Event) : (s.emit e).txb = s.txb := rfl
@[simp] theorem State.emit_rxb (s : State) (e : Event) : (s.emit e).rxb = s.rxb := rfl
@[simp] theorem State.emit_cmd (s : State) (e : Event) : (s.emit e).cmd = s.cmd := rfl
@[simp] theorem State.emit_stat (s : State) (e : Event) : (s.emit e).stat = s.stat := rfl
@[simp] theorem State.emit_acc (s : State) (e : Event) : (s.emit e).acc = s.acc := rfl
@[simp] theorem State.emit_seq (s : State) (e : Event) : (s.emit e).seq = s.seq := rfl
@[simp] theorem State.emit_fault (s : State) (e : Event) : (s.emit e).fault = s.fault := rfl
@[simp] theorem State.emit_trace (s : State) (e : Event) : (s.emit e).trace = s.trace ++ [e] := rfl
@[simp] theorem State.emit_program (s : State) (e : Event) : (s.emit e).program = s.program := rfl
@[simp] theorem State.emit_overlaps (s : State) (e : Event) : (s.emit e).overlaps = s.overlaps := rfl
@[simp] theorem State.emit_dataIn (s : State) (e : Event) : (s.emit e).dataIn = s.dataIn := rfl
@[simp] theorem State.emit_draws (s : State) (e : Event) : (s.emit e).draws = s.draws := rfl
@[simp] theorem State.emit_refusals (s : State) (e : Event) : (s.emit e).refusals = s.refusals := rfl

@[simp] theorem State.setMode_lines (s : State) (l : Line) (m : Mode) : (s.setMode l m).lines = s.lines := by cases l <;> rfl
@[simp] theorem State.setMode_initDone (s : State) (l : Line) (m : Mode) : (s.setMode l m).initDone = s.initDone := by cases l <;> rfl
@[simp] theorem State.setMode_txb (s : State) (l : Line) (m : Mode) : (s.setMode l m).txb = s.txb := by cases l <;> rfl
@[simp] theorem State.setMode_rxb (s : State) (l : Line) (m : Mode) : (s.setMode l m).rxb = s.rxb := by cases l <;> rfl
@[simp] theorem State.setMode_cmd (s : State) (l : Line) (m : Mode) : (s.setMode l m).cmd = s.cmd := by cases l <;> rfl
@[simp] theorem State.setMode_stat (s : State) (l : Line) (m : Mode) : (s.setMode l m).stat = s.stat := by cases l <;> rfl
@[simp] theorem State.setMode_acc (s : State) (l : Line) (m : Mode) : (s.setMode l m).acc = s.acc := by cases l <;> rfl
@[simp] theorem State.setMode_seq (s : State) (l : Line) (m : Mode) : (s.setMode l m).seq = s.seq := by cases l <;> rfl
@[simp] theorem State.setMode_fault (s : State) (l : Line) (m : Mode) : (s.setMode l m).fault = s.fault := by cases l <;> rfl
@[simp] theorem State.setMode_trace (s : State) (l : Line) (m : Mode) : (s.setMode l m).trace = s.trace := by cases l <;> rfl
@[simp] theorem State.setMode_program (s : State) (l : Line) (m : Mode) : (s.setMode l m).program = s.program := by cases l <;> rfl
@[simp] theorem State.setMode_overlaps (s : State) (l : Line) (m : Mode) : (s.setMode l m).overlaps = s.overlaps := by cases l <;> rfl
@[simp] theorem State.setMode_dataIn (s : State) (l : Line) (m : Mode) : (s.setMode l m).dataIn = s.dataIn := by cases l <;> rfl
@[simp] theorem State.setMode_draws (s : State) (l : Line) (m : Mode) : (s.setMode l m).draws = s.draws := by cases l <;> rfl
@[simp] theorem State.setMode_refusals (s : State) (l : Line) (m : Mode) : (s.setMode l m).refusals = s.refusals := by cases l <;> rfl
@[simp] theorem State.setLine_modes (s : State) (l : OutLine) (v : Level) : (s.setLine l v).modes = s.modes := by cases l <;> rfl
@[simp] theorem State.setLine_initDone (s : State) (l : OutLine) (v : Level) : (s.setLine l v).initDone = s.initDone := by cases l <;> rfl
@[simp] theorem State.setLine_txb (s : State) (l : OutLine) (v : Level) : (s.setLine l v).txb = s.txb := by cases l <;> rfl
@[simp] theorem State.setLine_rxb (s : State) (l : OutLine) (v : Level) : (s.setLine l v).rxb = s.rxb := by cases l <;> rfl
@[simp] theorem State.setLine_cmd (s : State) (l : OutLine) (v : Level) : (s.setLine l v).cmd = s.cmd := by cases l <;> rfl
@[simp] theorem State.setLine_stat (s : State) (l : OutLine) (v : Level) : (s.setLine l v).stat = s.stat := by cases l <;> rfl
@[simp] theorem State.setLine_acc (s : State) (l : OutLine) (v : Level) : (s.setLine l v).acc = s.acc := by cases l <;> rfl
@[simp] theorem State.setLine_seq (s : State) (l : OutLine) (v : Level) : (s.setLine l v).seq = s.seq := by cases l <;> rfl
@[simp] theorem State.setLine_fault (s : State) (l : OutLine) (v : Level) : (s.setLine l v).fault = s.fault := by cases l <;> rfl
@[simp] theorem State.setLine_trace (s : State) (l : OutLine) (v : Level) : (s.setLine l v).trace = s.trace := by cases l <;> rfl
@[simp] theorem State.setLine_program (s : State) (l : OutLine) (v : Level) : (s.setLine l v).program = s.program := by cases l <;> rfl
@[simp] theorem State.setLine_overlaps (s : State) (l : OutLine) (v : Level) : (s.setLine l v).overlaps = s.overlaps := by cases l <;> rfl
@[simp] theorem State.setLine_dataIn (s : State) (l : OutLine) (v : Level) : (s.setLine l v).dataIn = s.dataIn := by cases l <;> rfl
@[simp] theorem State.setLine_draws (s : State) (l : OutLine) (v : Level) : (s.setLine l v).draws = s.draws := by cases l <;> rfl
@[simp] theorem State.setLine_refusals (s : State) (l : OutLine) (v : Level) : (s.setLine l v).refusals = s.refusals := by cases l <;> rfl

/-- A write to a line is read back, and leaves the other lines alone. -/
theorem State.line_setLine (s : State) (l l' : OutLine) (v : Level) :
    (s.setLine l v).line l' = if l = l' then .val v else s.line l' := by
  cases l <;> cases l' <;> rfl

/-- A mode set on a line is read back, and leaves the other lines' modes alone. -/
theorem State.mode_setMode (s : State) (l l' : Line) (m : Mode) :
    (s.setMode l m).mode l' = if l = l' then m else s.mode l' := by
  cases l <;> cases l' <;> rfl

@[simp] theorem State.line_emit (s : State) (e : Event) (l : OutLine) : (s.emit e).line l = s.line l := by cases l <;> rfl
@[simp] theorem State.mode_emit (s : State) (e : Event) (l : Line) : (s.emit e).mode l = s.mode l := by cases l <;> rfl
@[simp] theorem State.line_setMode (s : State) (l : Line) (m : Mode) (l' : OutLine) :
    (s.setMode l m).line l' = s.line l' := by cases l <;> cases l' <;> rfl
@[simp] theorem State.mode_setLine (s : State) (l : OutLine) (v : Level) (l' : Line) :
    (s.setLine l v).mode l' = s.mode l' := by cases l <;> cases l' <;> rfl

@[simp] theorem lineRead_modes (s : State) : (lineRead s).modes = s.modes := rfl
@[simp] theorem lineRead_lines (s : State) : (lineRead s).lines = s.lines := rfl
@[simp] theorem lineRead_initDone (s : State) : (lineRead s).initDone = s.initDone := rfl
@[simp] theorem lineRead_txb (s : State) : (lineRead s).txb = s.txb := rfl
@[simp] theorem lineRead_rxb (s : State) : (lineRead s).rxb = s.rxb := rfl
@[simp] theorem lineRead_cmd (s : State) : (lineRead s).cmd = s.cmd := rfl
@[simp] theorem lineRead_stat (s : State) : (lineRead s).stat = s.stat := rfl
@[simp] theorem lineRead_acc (s : State) : (lineRead s).acc = s.acc := rfl
@[simp] theorem lineRead_seq (s : State) : (lineRead s).seq = s.seq := rfl
@[simp] theorem lineRead_fault (s : State) : (lineRead s).fault = s.fault := rfl
@[simp] theorem lineRead_trace (s : State) : (lineRead s).trace = s.trace ++ [.read s.answer] := rfl
@[simp] theorem lineRead_program (s : State) : (lineRead s).program = s.program := rfl
@[simp] theorem lineRead_overlaps (s : State) : (lineRead s).overlaps = s.overlaps := rfl
@[simp] theorem lineRead_dataIn (s : State) : (lineRead s).dataIn = s.dataIn.tail := rfl
@[simp] theorem lineRead_draws (s : State) : (lineRead s).draws = s.draws + 1 := rfl
@[simp] theorem lineRead_refusals (s : State) : (lineRead s).refusals = s.refusals := rfl

@[simp] theorem raiseFault_modes (r : FaultReason) (s : State) : (raiseFault r s).modes = s.modes := rfl
@[simp] theorem raiseFault_lines (r : FaultReason) (s : State) : (raiseFault r s).lines = s.lines := rfl
@[simp] theorem raiseFault_initDone (r : FaultReason) (s : State) : (raiseFault r s).initDone = s.initDone := rfl
@[simp] theorem raiseFault_txb (r : FaultReason) (s : State) : (raiseFault r s).txb = s.txb := rfl
@[simp] theorem raiseFault_rxb (r : FaultReason) (s : State) : (raiseFault r s).rxb = s.rxb := rfl
@[simp] theorem raiseFault_cmd (r : FaultReason) (s : State) : (raiseFault r s).cmd = s.cmd := rfl
@[simp] theorem raiseFault_stat (r : FaultReason) (s : State) : (raiseFault r s).stat = s.stat := rfl
@[simp] theorem raiseFault_acc (r : FaultReason) (s : State) : (raiseFault r s).acc = s.acc := rfl
@[simp] theorem raiseFault_seq (r : FaultReason) (s : State) : (raiseFault r s).seq = s.seq := rfl
@[simp] theorem raiseFault_trace (r : FaultReason) (s : State) : (raiseFault r s).trace = s.trace := rfl
@[simp] theorem raiseFault_program (r : FaultReason) (s : State) : (raiseFault r s).program = s.program := rfl
@[simp] theorem raiseFault_overlaps (r : FaultReason) (s : State) : (raiseFault r s).overlaps = s.overlaps := rfl
@[simp] theorem raiseFault_dataIn (r : FaultReason) (s : State) : (raiseFault r s).dataIn = s.dataIn := rfl
@[simp] theorem raiseFault_draws (r : FaultReason) (s : State) : (raiseFault r s).draws = s.draws := rfl
@[simp] theorem raiseFault_refusals (r : FaultReason) (s : State) : (raiseFault r s).refusals = s.refusals := rfl

/-- `raise` adds its reason and removes none (R36). -/
theorem mem_raiseFault_fault (r r' : FaultReason) (s : State) :
    r' ∈ (raiseFault r s).fault ↔ r' ∈ s.fault ∨ r' = r := by
  unfold raiseFault
  by_cases h : s.fault.contains r
  · simp only [h, if_true]
    exact ⟨.inl, fun h' => h'.elim id fun e => e ▸ by simpa using h⟩
  · simp only [h]
    simp

end Sys2Proof.Machine
end

