-- ==== Sys2Proof/Laws/Sequencer.lean ====
section
/-! SUPPORT. What the shared operations of the sequencer do, said once: the entry check, running positions with no second
agent about, and the effect of a bit slot, a byte shift and each operation's positions. -/

namespace Sys2Proof.Machine

/-! ### Entry check (R154) -/

theorem entryCheck_stopped {s : State} (op : HostOp) (h : s.fault ≠ []) : entryCheck op s = some (.stuck s) := by
  cases hf : s.fault <;> simp_all [entryCheck, State.isStopped]

theorem entryCheck_busy {s : State} (op : HostOp) (hf : s.fault = []) (h : s.seq ≠ .idle) :
    entryCheck op s = some (.reentrant op s.seq (raiseFault (.reentrant op s.seq) s)) := by
  simp [entryCheck, State.isStopped, State.isBusy, hf, h]

theorem entryCheck_uninit {s : State} {op : HostOp} (hf : s.fault = []) (h : s.seq = .idle) (hn : op.needsInit = true)
    (hi : s.initDone = false) :
    entryCheck op s = some (.notInitialized op (raiseFault (.notInitialized op) s)) := by
  simp [entryCheck, State.isStopped, State.isBusy, hf, h, hn, hi]

theorem entryCheck_passes {s : State} {op : HostOp} (hf : s.fault = []) (h : s.seq = .idle)
    (hi : op.needsInit = true → s.initDone = true) : entryCheck op s = none := by
  cases hn : op.needsInit <;> simp_all [entryCheck, State.isStopped, State.isBusy]

/-- An operation passes its entry check exactly where it may start. -/
theorem entryCheck_eq_none {s : State} {op : HostOp} :
    entryCheck op s = none ↔ s.fault = [] ∧ s.seq = .idle ∧ (op.needsInit = true → s.initDone = true) := by
  constructor
  · intro h
    by_cases hf : s.fault = []
    · by_cases hq : s.seq = .idle
      · refine ⟨hf, hq, fun hn => ?_⟩
        cases hi : s.initDone
        · simp [entryCheck_uninit hf hq hn hi] at h
        · rfl
      · simp [entryCheck_busy op hf hq] at h
    · simp [entryCheck_stopped op hf] at h
  · rintro ⟨hf, hq, hi⟩
    exact entryCheck_passes hf hq hi

/-! ### The second agent -/

@[simp] theorem landing_alone {s : State} (h : s.overlaps = []) : landing s = none := by simp [landing, h]
@[simp] theorem countdown_alone {s : State} (h : s.overlaps = []) : countdown s = s := by simp [countdown, h]

/-- While SEQ is Idle no call lands: it would be the host's own. -/
theorem landing_idle {s : State} (h : s.seq = .idle) : landing s = none := by
  unfold landing
  split <;> simp [State.isBusy, h]

/-- A second agent's call never answers a next state: it is refused or raises a fault. -/
theorem landing_ne_next {s t : State} : landing s ≠ some (.next t) := by
  unfold landing overlapOutcome refuseWord
  intro h
  repeat' split at h
  all_goals simp_all

/-- The call that is due while an operation is in progress (R157): refused if its word spells no operation, and otherwise
met by the entry check, which never passes. -/
theorem landing_due {s : State} {w : Hcw} {rest : List Overlap} (hq : s.seq ≠ .idle)
    (ho : s.overlaps = { after := 0, word := w } :: rest) :
    landing s = overlapOutcome w { s with overlaps := rest } := by
  simp [landing, ho, State.isBusy, hq]

/-- With no call due none lands. -/
theorem landing_not_due {s : State} (h : s.seq = .idle ∨ ∀ w rest, s.overlaps ≠ { after := 0, word := w } :: rest) :
    landing s = none := by
  unfold landing
  split
  · rename_i w rest ho
    rcases h with h | h
    · simp [State.isBusy, h]
    · exact absurd ho (h w rest)
  · rfl

/-- A stopped BBT answers no next state. -/
theorem stoppedOutcome_ne_next {s t : State} : stoppedOutcome s ≠ .next t := by
  unfold stoppedOutcome
  intro h
  split at h
  · rename_i r hr; exact landing_ne_next (h ▸ hr)
  · cases h

/-- With no call due a stopped BBT is stuck, and nothing changes. -/
theorem stoppedOutcome_not_due {s : State}
    (h : s.seq = .idle ∨ ∀ w rest, s.overlaps ≠ { after := 0, word := w } :: rest) :
    stoppedOutcome s = .fault (.stuck s) := by
  simp [stoppedOutcome, landing_not_due h]

/-! ### Performing positions -/

@[simp] theorem act_overlaps (p : Seq) (s : State) : (act p s).overlaps = s.overlaps := by
  cases p with
  | idle => rfl
  | init k => fin_cases k <;> rfl
  | xfer b i st => cases st <;> simp only [act, shiftStep] <;> split <;> rfl
  | transact t pos =>
    cases pos with
    | selAssert => rfl
    | selDeassert => rfl
    | byte j i st =>
      cases st <;> simp only [act, frameStep, shiftStep, storeByte] <;> (repeat' split) <;> rfl

@[simp] theorem complete_overlaps (s : State) : (complete s).overlaps = s.overlaps := by
  unfold complete; split <;> rfl

@[simp] theorem perform_overlaps (p : Seq) (s : State) : (perform p s).overlaps = s.overlaps := by
  unfold perform; split <;> simp

@[simp] theorem act_fault (p : Seq) (s : State) : (act p s).fault = s.fault := by
  cases p with
  | idle => rfl
  | init k => fin_cases k <;> rfl
  | xfer b i st => cases st <;> simp only [act, shiftStep] <;> split <;> rfl
  | transact t pos =>
    cases pos with
    | selAssert => rfl
    | selDeassert => rfl
    | byte j i st =>
      cases st <;> simp only [act, frameStep, shiftStep, storeByte] <;> (repeat' split) <;> rfl

@[simp] theorem complete_fault (s : State) : (complete s).fault = s.fault := by
  unfold complete; split <;> rfl

/-- No position raises a fault (R150). -/
@[simp] theorem perform_fault (p : Seq) (s : State) : (perform p s).fault = s.fault := by
  unfold perform; split <;> simp

@[simp] theorem countdown_fault (s : State) : (countdown s).fault = s.fault := by
  unfold countdown; split <;> rfl

/-- A position with one after it is its action. -/
theorem perform_of_next {p q : Seq} (h : p.next = some q) (s : State) : perform p s = act p { s with seq := p } := by
  simp [perform, h]

/-- An operation's last position is its action and then the return. -/
theorem perform_of_last {p : Seq} (h : p.next = none) (s : State) :
    perform p s = complete (act p { s with seq := p }) := by
  simp [perform, h]

/-- Performing positions one after the other. -/
def performAll (ps : List Seq) (s : State) : State := ps.foldl (fun s p => perform p s) s

@[simp] theorem performAll_nil (s : State) : performAll [] s = s := rfl
@[simp] theorem performAll_cons (p : Seq) (ps : List Seq) (s : State) :
    performAll (p :: ps) s = performAll ps (perform p s) := rfl
theorem performAll_append (ps qs : List Seq) (s : State) :
    performAll (ps ++ qs) s = performAll qs (performAll ps s) := List.foldl_append

/-- With no second agent's call coming, running positions is performing them. -/
theorem runSeq_alone (ps : List Seq) : ∀ {s : State}, s.overlaps = [] → runSeq ps s = .next (performAll ps s) := by
  induction ps with
  | nil => intro s _; rfl
  | cons p ps ih =>
    intro s h
    rw [runSeq, landing_alone h]
    simp only [countdown_alone h]
    exact ih (by simp [h])

/-! ### A bit slot and a byte shift -/

/-- The level a slot samples: the device's answer once DATA_OUT has been driven and CLOCK made active (R116). -/
def slotSample (b : Bool) (s : State) : Level :=
  match s.dataIn with
  | v :: _ => v
  | [] => Config.device (s.trace ++ [.write .dataOut (level b), .delay .tSettle, .write .clock .low]) s.draws

/-- The state after a bit slot that sent bit i of `b`, sampled `v` into `rx`, and ended at position `q`. -/
def afterSlot (q : Seq) (b : Byte) (i : Fin 8) (v : Level) (rx : Byte) (s : State) : State :=
  { s with
    lines := { s.lines with dataOut := .val (level (b.getLsbD i.val)), clock := .val .high }
    txb := .val b
    rxb := .val (setBit rx i (bit v))
    seq := q
    trace := s.trace ++ slotEvents (b.getLsbD i.val) v
    dataIn := s.dataIn.tail
    draws := s.draws + 1 }

/-- The six actions of a slot, the sequencer position set before each. -/
def slotActions (mk : SlotStep → Seq) (b : Byte) (i : Fin 8) (s : State) : State :=
  slotSteps.foldl (fun s st => shiftStep b i st { s with seq := mk st }) s

theorem slotActions_first (mk : SlotStep → Seq) (b : Byte) (s : State) :
    slotActions mk b 7 s = afterSlot (mk .s6) b 7 (slotSample (b.getLsbD 7) s) 0x00 s := by
  cases h : s.dataIn <;>
  simp [slotActions, slotSteps, shiftStep, shiftBit, loadByte, lineWrite, delayUs, clkActive, clkInactive, lineRead,
    State.setLine, State.emit, State.txbByte, State.rxbByte, Held.read, State.answer, slotSample, afterSlot,
    slotEvents, Logical.level, h]

theorem slotActions_later (mk : SlotStep → Seq) (b : Byte) {i : Fin 8} (hi : i ≠ 7) {rx : Byte} {s : State}
    (ht : s.txb = .val b) (hr : s.rxb = .val rx) :
    slotActions mk b i s = afterSlot (mk .s6) b i (slotSample (b.getLsbD i.val) s) rx s := by
  cases h : s.dataIn <;>
  simp [slotActions, slotSteps, shiftStep, shiftBit, lineWrite, delayUs, clkActive, clkInactive, lineRead,
    State.setLine, State.emit, State.txbByte, State.rxbByte, Held.read, State.answer, slotSample, afterSlot,
    slotEvents, Logical.level, h, hi, ht, hr]

/-- A slot with what its sample is: the next level the environment has fixed, if there is one. -/
theorem slotActions_spec (mk : SlotStep → Seq) (b : Byte) (i : Fin 8) {rx : Byte} {s : State}
    (h : i = 7 ∧ rx = 0x00 ∨ i ≠ 7 ∧ s.txb = .val b ∧ s.rxb = .val rx) :
    ∃ v, slotActions mk b i s = afterSlot (mk .s6) b i v rx s ∧ ∀ v', s.dataIn[0]? = some v' → v = v' := by
  refine ⟨slotSample (b.getLsbD i.val) s, ?_, ?_⟩
  · rcases h with ⟨rfl, rfl⟩ | ⟨hi, ht, hr⟩
    · exact slotActions_first mk b s
    · exact slotActions_later mk b hi ht hr
  · intro v' hv
    cases hd : s.dataIn <;> simp_all [slotSample]

/-- The 48 actions of a byte shift. -/
def byteActions (mk : Fin 8 → SlotStep → Seq) (b : Byte) (s : State) : State :=
  bitIndices.foldl (fun s i => slotActions (mk i) b i s) s

/-- The state after a byte shift that sent `b`, received `r`, and ended at position `q`. -/
def afterByte (q : Seq) (b r : Byte) (s : State) : State :=
  { s with
    lines := { s.lines with dataOut := .val (level (b.getLsbD 0)), clock := .val .high }
    txb := .val b
    rxb := .val r
    seq := q
    trace := s.trace ++ byteEvents b r
    dataIn := s.dataIn.drop 8
    draws := s.draws + 8 }

/-- A byte shift (R111, R113): bit 7 - k of the byte received is the k-th sample. -/
theorem byteActions_spec (mk : Fin 8 → SlotStep → Seq) (b : Byte) (s : State) :
    ∃ r, byteActions mk b s = afterByte (mk 0 .s6) b r s ∧
      ∀ k : Fin 8, ∀ v, s.dataIn[k.val]? = some v → r.getLsbD (7 - k.val) = bit v := by
  obtain ⟨v7, e7, h7⟩ := slotActions_spec (mk 7) b 7 (rx := 0x00) (s := s) (.inl ⟨rfl, rfl⟩)
  let s7 := afterSlot (mk 7 .s6) b 7 v7 0x00 s
  let x7 := setBit 0x00 7 (bit v7)
  obtain ⟨v6, e6, h6⟩ := slotActions_spec (mk 6) b 6 (rx := x7) (s := s7) (.inr ⟨by decide, rfl, rfl⟩)
  let s6 := afterSlot (mk 6 .s6) b 6 v6 x7 s7
  let x6 := setBit x7 6 (bit v6)
  obtain ⟨v5, e5, h5⟩ := slotActions_spec (mk 5) b 5 (rx := x6) (s := s6) (.inr ⟨by decide, rfl, rfl⟩)
  let s5 := afterSlot (mk 5 .s6) b 5 v5 x6 s6
  let x5 := setBit x6 5 (bit v5)
  obtain ⟨v4, e4, h4⟩ := slotActions_spec (mk 4) b 4 (rx := x5) (s := s5) (.inr ⟨by decide, rfl, rfl⟩)
  let s4 := afterSlot (mk 4 .s6) b 4 v4 x5 s5
  let x4 := setBit x5 4 (bit v4)
  obtain ⟨v3, e3, h3⟩ := slotActions_spec (mk 3) b 3 (rx := x4) (s := s4) (.inr ⟨by decide, rfl, rfl⟩)
  let s3 := afterSlot (mk 3 .s6) b 3 v3 x4 s4
  let x3 := setBit x4 3 (bit v3)
  obtain ⟨v2, e2, h2⟩ := slotActions_spec (mk 2) b 2 (rx := x3) (s := s3) (.inr ⟨by decide, rfl, rfl⟩)
  let s2 := afterSlot (mk 2 .s6) b 2 v2 x3 s3
  let x2 := setBit x3 2 (bit v2)
  obtain ⟨v1, e1, h1⟩ := slotActions_spec (mk 1) b 1 (rx := x2) (s := s2) (.inr ⟨by decide, rfl, rfl⟩)
  let s1 := afterSlot (mk 1 .s6) b 1 v1 x2 s2
  let x1 := setBit x2 1 (bit v1)
  obtain ⟨v0, e0, h0⟩ := slotActions_spec (mk 0) b 0 (rx := x1) (s := s1) (.inr ⟨by decide, rfl, rfl⟩)
  have hr := setBit_all 0x00 ![bit v0, bit v1, bit v2, bit v3, bit v4, bit v5, bit v6, bit v7]
  refine ⟨setBit x1 0 (bit v0), ?_, ?_⟩
  rotate_left
  · intro k v hk
    fin_cases k
    · exact (hr 7).trans (congrArg bit (h7 v hk))
    · exact (hr 6).trans (congrArg bit (h6 v (by simpa [s1, s2, s3, s4, s5, s6, s7, afterSlot] using hk)))
    · exact (hr 5).trans (congrArg bit (h5 v (by simpa [s1, s2, s3, s4, s5, s6, s7, afterSlot] using hk)))
    · exact (hr 4).trans (congrArg bit (h4 v (by simpa [s1, s2, s3, s4, s5, s6, s7, afterSlot] using hk)))
    · exact (hr 3).trans (congrArg bit (h3 v (by simpa [s1, s2, s3, s4, s5, s6, s7, afterSlot] using hk)))
    · exact (hr 2).trans (congrArg bit (h2 v (by simpa [s1, s2, s3, s4, s5, s6, s7, afterSlot] using hk)))
    · exact (hr 1).trans (congrArg bit (h1 v (by simpa [s1, s2, s3, s4, s5, s6, s7, afterSlot] using hk)))
    · exact (hr 0).trans (congrArg bit (h0 v (by simpa [s1, s2, s3, s4, s5, s6, s7, afterSlot] using hk)))
  · have r7 : (setBit x1 0 (bit v0)).getLsbD 7 = bit v7 := hr 7
    have r6 : (setBit x1 0 (bit v0)).getLsbD 6 = bit v6 := hr 6
    have r5 : (setBit x1 0 (bit v0)).getLsbD 5 = bit v5 := hr 5
    have r4 : (setBit x1 0 (bit v0)).getLsbD 4 = bit v4 := hr 4
    have r3 : (setBit x1 0 (bit v0)).getLsbD 3 = bit v3 := hr 3
    have r2 : (setBit x1 0 (bit v0)).getLsbD 2 = bit v2 := hr 2
    have r1 : (setBit x1 0 (bit v0)).getLsbD 1 = bit v1 := hr 1
    have r0 : (setBit x1 0 (bit v0)).getLsbD 0 = bit v0 := hr 0
    have E : byteActions mk b s = afterSlot (mk 0 .s6) b 0 v0 x1 s1 := by
      have E7 : slotActions (mk 7) b 7 s = s7 := e7
      have E6 : slotActions (mk 6) b 6 s7 = s6 := e6
      have E5 : slotActions (mk 5) b 5 s6 = s5 := e5
      have E4 : slotActions (mk 4) b 4 s5 = s4 := e4
      have E3 : slotActions (mk 3) b 3 s4 = s3 := e3
      have E2 : slotActions (mk 2) b 2 s3 = s2 := e2
      have E1 : slotActions (mk 1) b 1 s2 = s1 := e1
      simp only [byteActions, bitIndices, List.foldl_cons, List.foldl_nil]
      rw [E7, E6, E5, E4, E3, E2, E1, e0]
    rw [E]
    simp only [afterByte, byteEvents, r7, r6, r5, r4, r3, r2, r1, r0, level_bit]
    simp [s1, s2, s3, s4, s5, s6, s7, afterSlot]
    simp only [← List.drop_one, List.drop_drop]

@[simp] theorem shiftStep_cmd (b : Byte) (i : Fin 8) (st : SlotStep) (s : State) :
    (shiftStep b i st s).cmd = s.cmd := by
  cases st <;> simp only [shiftStep] <;> split <;> rfl

@[simp] theorem byteActions_cmd (mk : Fin 8 → SlotStep → Seq) (b : Byte) (s : State) :
    (byteActions mk b s).cmd = s.cmd := by
  obtain ⟨r, h, -⟩ := byteActions_spec mk b s
  rw [h]; rfl

/-- A position of frame byte j: CMD is read only with the first step of the first slot. -/
theorem perform_frameByte (t : Transaction) (j : Fin 5) (i : Fin 8) (st : SlotStep) {c : Byte} {s : State}
    (hc : i = 7 ∧ st = .s1 → s.cmdByte = c) :
    perform (.transact t (.byte j i st)) s =
      let s' := shiftStep (frameByte c t.payload j) i st { s with seq := .transact t (.byte j i st) }
      if i = 0 ∧ st = .s6 then storeByte j s' else s' := by
  have hn : ∃ q, (Seq.transact t (.byte j i st)).next = some q := by
    simp only [Seq.next, FramePos.next, nextInByte]
    repeat' split
    all_goals exact ⟨_, rfl⟩
  obtain ⟨q, hq⟩ := hn
  rw [perform_of_next hq, act, frameStep]
  by_cases h : i = 7 ∧ st = .s1
  · rw [show ({ s with seq := Seq.transact t (.byte j i st) } : State).cmdByte = c from hc h]
  · simp only [shiftStep, if_neg h]

/-- The positions of one slot of frame byte j are the slot's actions; the last slot's are followed by storing the byte. -/
theorem performAll_frameSlot (t : Transaction) (j : Fin 5) (i : Fin 8) {c : Byte} {s : State}
    (hc : i = 7 → s.cmdByte = c) :
    performAll (slotSteps.map fun st => .transact t (.byte j i st)) s =
      let s' := slotActions (fun st => .transact t (.byte j i st)) (frameByte c t.payload j) i s
      if i = 0 then storeByte j s' else s' := by
  have first : perform (.transact t (.byte j i .s1)) s = shiftStep (frameByte c t.payload j) i .s1
      { s with seq := .transact t (.byte j i .s1) } := by
    rw [perform_frameByte t j i .s1 (c := c) fun h => hc h.1]; simp
  have middle : ∀ st s, st ≠ .s1 → st ≠ .s6 → perform (.transact t (.byte j i st)) s =
      shiftStep (frameByte c t.payload j) i st { s with seq := .transact t (.byte j i st) } := by
    intro st s h1 h6
    rw [perform_frameByte t j i st (c := c) fun h => absurd h.2 h1]; simp [h6]
  have last : ∀ s, perform (.transact t (.byte j i .s6)) s =
      let s' := shiftStep (frameByte c t.payload j) i .s6 { s with seq := .transact t (.byte j i .s6) }
      if i = 0 then storeByte j s' else s' := by
    intro s
    rw [perform_frameByte t j i .s6 (c := c) (by simp)]; simp
  show perform _ (perform _ (perform _ (perform _ (perform _ (perform (.transact t (.byte j i .s1)) s))))) = _
  rw [last, middle .s5 _ (by decide) (by decide), middle .s4 _ (by decide) (by decide), middle .s3 _ (by decide) (by decide),
    middle .s2 _ (by decide) (by decide), first]
  rfl

/-- Frame byte j (R127): the byte shift of CMD or of a payload byte, and the byte received stored. -/
theorem performAll_frameByte (t : Transaction) (j : Fin 5) {c : Byte} {s : State} (hc : s.cmdByte = c) :
    performAll (frameBytePositions t j) s =
      storeByte j (byteActions (fun i st => .transact t (.byte j i st)) (frameByte c t.payload j) s) := by
  have first := performAll_frameSlot t j 7 (c := c) (s := s) (fun _ => hc)
  have later := fun (i : Fin 8) (hi : i ≠ 7) (s : State) =>
    performAll_frameSlot t j i (c := c) (s := s) (fun h => absurd h hi)
  simp only [frameBytePositions, bytePositions, bitIndices, byteActions, List.flatMap_cons, List.flatMap_nil,
    performAll_append, List.foldl_cons, List.foldl_nil, performAll_nil]
  rw [first, later 6 (by decide), later 5 (by decide), later 4 (by decide), later 3 (by decide), later 2 (by decide),
    later 1 (by decide), later 0 (by decide)]
  simp

/-- XFER's positions (R112): the byte shift, then the return. -/
theorem performAll_xfer (b : Byte) (s : State) :
    performAll (HostOp.xfer b).positions s = complete (byteActions (Seq.xfer b) b s) := by
  simp [performAll, HostOp.positions, bytePositions, bitIndices, slotSteps, byteActions, slotActions, perform, act, Seq.next,
    nextInByte, SlotStep.next]

/-- INIT's positions (R97). -/
theorem performAll_init (s : State) :
    performAll HostOp.init.positions s =
      { s with
        modes := initModes
        lines := { s.lines with select := .val .high, clock := .val .high }
        initDone := true
        seq := .idle
        trace := s.trace ++ initEvents ++ [.ret .init .none] } := by
  simp [performAll, HostOp.positions, perform, act, initStep, Seq.next, complete, lineMode, selDeassert, clkInactive, lineWrite,
    State.setMode, State.setLine, State.emit, Logical.level, initEvents, initModes]

/-- The state after frame byte j, which sent a byte of the frame of `t` and received `r`. -/
def afterFrameByte (t : Transaction) (c : Byte) (j : Fin 5) (r : Byte) (s : State) : State :=
  storeByte j (afterByte (.transact t (.byte j 0 .s6)) (frameByte c t.payload j) r s)

@[simp] theorem afterFrameByte_cmd (t : Transaction) (c : Byte) (j : Fin 5) (r : Byte) (s : State) :
    (afterFrameByte t c j r s).cmd = s.cmd := by
  unfold afterFrameByte storeByte; split <;> rfl

@[simp] theorem afterFrameByte_dataIn (t : Transaction) (c : Byte) (j : Fin 5) (r : Byte) (s : State) :
    (afterFrameByte t c j r s).dataIn = s.dataIn.drop 8 := by
  unfold afterFrameByte storeByte; split <;> rfl

/-- Frame byte j with what it samples. -/
theorem performAll_frameByte_spec (t : Transaction) (j : Fin 5) {c : Byte} {s : State} (hc : s.cmdByte = c) :
    ∃ r, performAll (frameBytePositions t j) s = afterFrameByte t c j r s ∧
      ∀ k : Fin 8, ∀ v, s.dataIn[k.val]? = some v → r.getLsbD (7 - k.val) = bit v := by
  obtain ⟨r, e, h⟩ := byteActions_spec (fun i st => .transact t (.byte j i st)) (frameByte c t.payload j) s
  exact ⟨r, by rw [performAll_frameByte t j hc, e]; rfl, h⟩

/-- The state after a TRANSACT that sent command byte `c`, sampled `stat` meanwhile, and received `result`. -/
def afterFrame (t : Transaction) (c : Byte) (stat : Byte) (result : Word) (s : State) : State :=
  { s with
    lines := { clock := .val .high, dataOut := .val (level (t.payload.getLsbD 0)), select := .val .high }
    txb := .val (t.payload.extractLsb' 0 8)
    rxb := .val (result.extractLsb' 0 8)
    stat := .val stat
    acc := .val result
    seq := .idle
    trace := s.trace ++ frameEvents c t.payload stat result ++ [.ret t.name (.word result)]
    dataIn := s.dataIn.drop 40
    draws := s.draws + 40 }

/-- The five bytes between SELECT asserted and de-asserted, put together. -/
theorem frame_assembled (t : Transaction) (c r0 r1 r2 r3 r4 : Byte) (s : State) :
    perform (.transact t .selDeassert) (afterFrameByte t c 4 r4 (afterFrameByte t c 3 r3 (afterFrameByte t c 2 r2
      (afterFrameByte t c 1 r1 (afterFrameByte t c 0 r0 (perform (.transact t .selAssert) s)))))) =
    afterFrame t c r0 (wordOf r1 r2 r3 r4) s := by
  obtain ⟨x1, x2, x3, x4⟩ := wordOf_bytes r1 r2 r3 r4
  simp only [afterFrame, frameEvents, x1, x2, x3, x4]
  simp [perform, act, Seq.next, FramePos.next, complete, selDeassert, selAssert, lineWrite, State.emit, State.setLine,
    Logical.level, afterFrameByte, storeByte, afterByte, frameByte, payloadByte, State.accWord, State.rxbByte, Held.read,
    accumulate_all]

/-- The five bytes of a frame, from the state with SELECT just asserted: the bytes received, and which samples they
are. -/
theorem performAll_frameBytes (t : Transaction) {c : Byte} {a : State} (ha : a.cmd = .val c) :
    ∃ r0 r1 r2 r3 r4, performAll (([0, 1, 2, 3, 4] : List (Fin 5)).flatMap (frameBytePositions t)) a =
        afterFrameByte t c 4 r4 (afterFrameByte t c 3 r3 (afterFrameByte t c 2 r2 (afterFrameByte t c 1 r1
          (afterFrameByte t c 0 r0 a)))) ∧
      ∀ k : Fin 8, ∀ v,
        (a.dataIn[k.val]? = some v → r0.getLsbD (7 - k.val) = bit v) ∧
        (a.dataIn[8 + k.val]? = some v → r1.getLsbD (7 - k.val) = bit v) ∧
        (a.dataIn[16 + k.val]? = some v → r2.getLsbD (7 - k.val) = bit v) ∧
        (a.dataIn[24 + k.val]? = some v → r3.getLsbD (7 - k.val) = bit v) ∧
        (a.dataIn[32 + k.val]? = some v → r4.getLsbD (7 - k.val) = bit v) := by
  have read := fun {s : State} (h : s.cmd = .val c) => show s.cmdByte = c by simp [State.cmdByte, Held.read, h]
  obtain ⟨r0, e0, h0⟩ := performAll_frameByte_spec t 0 (read ha)
  obtain ⟨a0, q0⟩ : ∃ a0, a0 = afterFrameByte t c 0 r0 a := ⟨_, rfl⟩
  obtain ⟨r1, e1, h1⟩ := performAll_frameByte_spec t 1 (s := a0) (c := c) (read (by simp [q0, ha]))
  obtain ⟨a1, q1⟩ : ∃ a1, a1 = afterFrameByte t c 1 r1 a0 := ⟨_, rfl⟩
  obtain ⟨r2, e2, h2⟩ := performAll_frameByte_spec t 2 (s := a1) (c := c) (read (by simp [q1, q0, ha]))
  obtain ⟨a2, q2⟩ : ∃ a2, a2 = afterFrameByte t c 2 r2 a1 := ⟨_, rfl⟩
  obtain ⟨r3, e3, h3⟩ := performAll_frameByte_spec t 3 (s := a2) (c := c) (read (by simp [q2, q1, q0, ha]))
  obtain ⟨a3, q3⟩ : ∃ a3, a3 = afterFrameByte t c 3 r3 a2 := ⟨_, rfl⟩
  obtain ⟨r4, e4, h4⟩ := performAll_frameByte_spec t 4 (s := a3) (c := c) (read (by simp [q3, q2, q1, q0, ha]))
  refine ⟨r0, r1, r2, r3, r4, ?_, fun k v => ⟨h0 k v, fun h => h1 k v ?_, fun h => h2 k v ?_, fun h => h3 k v ?_,
    fun h => h4 k v ?_⟩⟩
  · have split : ∀ f : Fin 5 → List Seq, ([0, 1, 2, 3, 4] : List (Fin 5)).flatMap f = f 0 ++ (f 1 ++ (f 2 ++ (f 3 ++ f 4))) :=
      fun f => by simp
    rw [split, performAll_append, performAll_append, performAll_append, performAll_append, e0, ← q0, e1, ← q1, e2, ← q2,
      e3, ← q3, e4]
  all_goals simpa [q3, q2, q1, q0, List.getElem?_drop] using h

/-- TRANSACT's positions (R127, R130): bit 39 - k of the 40 bits received is the k-th sample; the first eight are STAT
and the rest the result. -/
theorem performAll_transact (t : Transaction) {c : Byte} {s : State} (hc : s.cmd = .val c) :
    ∃ stat result, performAll (HostOp.transact t).positions s = afterFrame t c stat result s ∧
      ∀ k : Fin 40, ∀ v, s.dataIn[k.val]? = some v → (stat ++ result : BitVec 40).getLsbD (39 - k.val) = bit v := by
  obtain ⟨r0, r1, r2, r3, r4, e, h⟩ := performAll_frameBytes t (a := perform (.transact t .selAssert) s) hc
  refine ⟨r0, wordOf r1 r2 r3 r4, ?_, ?_⟩
  · rw [HostOp.positions, performAll_cons, performAll_append, e, performAll_cons, performAll_nil, frame_assembled]
  · intro k v hk
    obtain ⟨k, hlt⟩ := k
    have key : ∃ m : Fin 8, k = m.val ∨ k = 8 + m.val ∨ k = 16 + m.val ∨ k = 24 + m.val ∨ k = 32 + m.val :=
      ⟨⟨k % 8, by omega⟩, by simp only; omega⟩
    obtain ⟨m, hm⟩ := key
    have hm' := m.isLt
    obtain ⟨h0, h1, h2, h3, h4⟩ := h m v
    rw [getLsbD_received]
    rcases hm with rfl | rfl | rfl | rfl | rfl
    · rw [← h0 hk, if_neg (by simp only; omega)]
      congr 1; simp only; omega
    all_goals rw [if_pos (by simp only; omega), getLsbD_wordOf]
    · rw [← h1 hk, if_neg (by simp only; omega), if_neg (by simp only; omega), if_neg (by simp only; omega)]
      congr 1; simp only; omega
    · rw [← h2 hk, if_neg (by simp only; omega), if_neg (by simp only; omega), if_pos (by simp only; omega)]
      congr 1; simp only; omega
    · rw [← h3 hk, if_neg (by simp only; omega), if_pos (by simp only; omega)]
      congr 1; simp only; omega
    · rw [← h4 hk, if_pos (by simp only; omega)]
      congr 1; simp only; omega

end Sys2Proof.Machine
end

