-- ==== Sys2Proof/Laws/Outcome.lean ====
section
/-! SUPPORT. What an operation that answers a next state leaves, whatever calls of a second agent are still to come: the
effect of its positions on everything but the list of those calls. -/

namespace Sys2Proof.Machine

/-- `s` with other calls of a second agent still to come. -/
def State.withOverlaps (s : State) (o : List Overlap) : State := { s with overlaps := o }

theorem countdown_eq (s : State) : ∃ o, countdown s = s.withOverlaps o := by
  unfold countdown
  split
  · exact ⟨_, rfl⟩
  · exact ⟨s.overlaps, rfl⟩

@[simp] theorem withOverlaps_withOverlaps (s : State) (o o' : List Overlap) :
    (s.withOverlaps o).withOverlaps o' = s.withOverlaps o' := rfl

/-- What a position does reads nothing of the calls still to come. -/
theorem act_withOverlaps (p : Seq) (s : State) (o : List Overlap) :
    act p (s.withOverlaps o) = (act p s).withOverlaps o := by
  cases p with
  | idle => rfl
  | init k => fin_cases k <;> rfl
  | xfer b i st => cases st <;> simp only [act, shiftStep] <;> split <;> rfl
  | transact t pos =>
    cases pos with
    | selAssert => rfl
    | selDeassert => rfl
    | byte j i st =>
      cases st <;> simp only [act, frameStep, shiftStep, storeByte] <;> (repeat' split) <;> rfl

theorem complete_withOverlaps (s : State) (o : List Overlap) :
    complete (s.withOverlaps o) = (complete s).withOverlaps o := by
  obtain ⟨modes, lines, initDone, txb, rxb, cmd, stat, acc, seq, fault, trace, program, overlaps, dataIn, draws, refusals⟩ := s
  cases seq <;> rfl

theorem perform_withOverlaps (p : Seq) (s : State) (o : List Overlap) :
    perform p (s.withOverlaps o) = (perform p s).withOverlaps o := by
  have h : act p { s.withOverlaps o with seq := p } = (act p { s with seq := p }).withOverlaps o :=
    act_withOverlaps p { s with seq := p } o
  unfold perform
  cases p.next <;> simp only [h, complete_withOverlaps]

theorem performAll_withOverlaps (ps : List Seq) : ∀ (s : State) (o : List Overlap),
    performAll ps (s.withOverlaps o) = (performAll ps s).withOverlaps o := by
  induction ps with
  | nil => intro s o; rfl
  | cons p ps ih => intro s o; rw [performAll_cons, perform_withOverlaps, ih, performAll_cons]

/-- Running positions, where it answers a next state, is performing them. -/
theorem runSeq_next {ps : List Seq} : ∀ {s t : State}, runSeq ps s = .next t →
    ∃ o, t = (performAll ps s).withOverlaps o := by
  induction ps with
  | nil => intro s t h; cases h; exact ⟨s.overlaps, rfl⟩
  | cons p ps ih =>
    intro s t h
    rw [runSeq] at h
    split at h
    · rename_i r hr
      exfalso
      subst h
      unfold landing overlapOutcome refuseWord at hr
      repeat' split at hr
      all_goals simp_all
    · obtain ⟨o', ho'⟩ := countdown_eq s
      obtain ⟨o, rfl⟩ := ih h
      exact ⟨o, by rw [ho', perform_withOverlaps, performAll_withOverlaps]; rfl⟩

/-- A host operation that answers a next state passed its entry check, and its positions were performed. -/
theorem issue_next {op : HostOp} {s t : State} (h : issue op s = .next t) :
    entryCheck op s = none ∧ ∃ o, t = (performAll op.positions (openCall op s)).withOverlaps o := by
  unfold issue at h
  split at h
  · cases h
  · exact ⟨‹_›, runSeq_next h⟩

/-- A host operation that passes its entry check while no second agent calls answers a next state. -/
theorem issue_alone {op : HostOp} {s : State} (h : entryCheck op s = none) (ho : s.overlaps = []) :
    issue op s = .next (performAll op.positions (openCall op s)) := by
  have ho' : (openCall op s).overlaps = [] := by cases op <;> exact ho
  rw [issue, h]
  exact runSeq_alone _ ho'

/-- The effect of XFER's positions. -/
theorem performAll_xfer_spec (b : Byte) (s : State) :
    ∃ r, performAll (HostOp.xfer b).positions s =
        { s with
          lines := { s.lines with dataOut := .val (level (b.getLsbD 0)), clock := .val .high }
          txb := .val b
          rxb := .val r
          seq := .idle
          trace := s.trace ++ byteEvents b r ++ [.ret .xfer (.byte r)]
          dataIn := s.dataIn.drop 8
          draws := s.draws + 8 } ∧
      ∀ k : Fin 8, ∀ v, s.dataIn[k.val]? = some v → r.getLsbD (7 - k.val) = bit v := by
  obtain ⟨r, e, h⟩ := byteActions_spec (Seq.xfer b) b s
  exact ⟨r, by rw [performAll_xfer, e]; rfl, h⟩

/-- TRANSACT's call leaves the command byte in CMD (R72, R127). -/
theorem openCall_transact_cmd (t : Transaction) (s : State) :
    (openCall (.transact t) s).cmd = .val (commandByte t.isRead t.address) := rfl

/-! ### The meanings as host operations -/

theorem exec_transactW (a : Addr7) (p : Word) (s : State) :
    execTransactW (a.setWidth 8) p s = issue (.transact { address := a, payload := p, isRead := false }) s := by
  simp [execTransactW, transact]

theorem exec_transactR (a : Addr7) (p : Word) (s : State) :
    execTransactR (a.setWidth 8) p s = issue (.transact { address := a, payload := p, isRead := true }) s := by
  simp [execTransactR, transact]

/-- A TRANSACT that answers a next state had a 7-bit address. -/
theorem transact_next {isRead : Bool} {address : BitVec 8} {p : Word} {s t : State}
    (h : transact isRead address p s = .next t) :
    ∃ a : Addr7, address = a.setWidth 8 ∧ issue (.transact { address := a, payload := p, isRead := isRead }) s = .next t := by
  unfold transact at h
  split at h
  · rename_i a ha
    exact ⟨a, narrowAddress_eq_some.1 ha, h⟩
  · cases h

/-- A wire command byte that answers a next state was frame byte 0 of the TRANSACT in progress. -/
theorem sendCommandByte_next {b : Byte} {s t : State} (h : sendCommandByte b s = .next t) :
    s.fault = [] ∧ s.cmdByte = b ∧ ∃ tr o, s.seq = .transact tr .selAssert ∧
      t = (performAll (frameBytePositions tr 0) s).withOverlaps o := by
  unfold sendCommandByte at h
  split at h
  · exact absurd h stoppedOutcome_ne_next
  · rename_i hf
    split at h
    · rename_i tr hq
      split at h
      · rename_i hb
        obtain ⟨o, ho⟩ := runSeq_next h
        exact ⟨by simpa [State.isStopped] using hf, hb, tr, o, hq, ho⟩
      · cases h
    · cases h

/-! ### Everything an instruction that answers a next state has done -/

/-- The state INIT leaves (R44, R97). -/
def afterInit (s : State) : State :=
  { s with
    modes := initModes
    lines := { s.lines with select := .val .high, clock := .val .high }
    initDone := true
    seq := .idle
    trace := s.trace ++ [.call .init] ++ initEvents ++ [.ret .init .none] }

/-- The state XFER leaves when it received `r` (R112). -/
def afterXfer (b r : Byte) (s : State) : State :=
  { s with
    lines := { s.lines with dataOut := .val (level (b.getLsbD 0)), clock := .val .high }
    txb := .val b
    rxb := .val r
    seq := .idle
    trace := s.trace ++ [.call (.xfer b)] ++ byteEvents b r ++ [.ret .xfer (.byte r)]
    dataIn := s.dataIn.drop 8
    draws := s.draws + 8 }

/-- The state TRANSACT leaves (R127). -/
def afterTransact (t : Transaction) (stat : Byte) (result : Word) (s : State) : State :=
  { s with
    lines := { clock := .val .high, dataOut := .val (level (t.payload.getLsbD 0)), select := .val .high }
    txb := .val (t.payload.extractLsb' 0 8)
    rxb := .val (result.extractLsb' 0 8)
    cmd := .val (commandByte t.isRead t.address)
    stat := .val stat
    acc := .val result
    seq := .idle
    trace := s.trace ++ [.call (.transact t)] ++ frameEvents (commandByte t.isRead t.address) t.payload stat result ++
      [.ret t.name (.word result)]
    dataIn := s.dataIn.drop 40
    draws := s.draws + 40 }

/-- The state the command byte's shift leaves (R127, R131). -/
def afterCommandByte (t : Transaction) (b stat : Byte) (s : State) : State :=
  { s with
    lines := { s.lines with dataOut := .val (level (b.getLsbD 0)), clock := .val .high }
    txb := .val b
    rxb := .val stat
    stat := .val stat
    seq := .transact t (.byte 0 0 .s6)
    trace := s.trace ++ byteEvents b stat
    dataIn := s.dataIn.drop 8
    draws := s.draws + 8 }

theorem init_performed (s : State) : performAll HostOp.init.positions (openCall .init s) = afterInit s := by
  rw [performAll_init]; simp [openCall, State.emit, afterInit]

theorem xfer_performed (b : Byte) (s : State) :
    ∃ r, performAll (HostOp.xfer b).positions (openCall (.xfer b) s) = afterXfer b r s ∧
      ∀ k : Fin 8, ∀ v, s.dataIn[k.val]? = some v → r.getLsbD (7 - k.val) = bit v := by
  obtain ⟨r, e, h⟩ := performAll_xfer_spec b (openCall (.xfer b) s)
  exact ⟨r, by rw [e]; simp [openCall, State.emit, afterXfer], h⟩

theorem transact_performed (t : Transaction) (s : State) :
    ∃ stat result, performAll (HostOp.transact t).positions (openCall (.transact t) s) = afterTransact t stat result s ∧
      ∀ k : Fin 40, ∀ v, s.dataIn[k.val]? = some v → (stat ++ result : BitVec 40).getLsbD (39 - k.val) = bit v := by
  obtain ⟨stat, result, e, h⟩ := performAll_transact t (openCall_transact_cmd t s)
  exact ⟨stat, result, by rw [e]; simp [openCall, State.emit, afterFrame, afterTransact], h⟩

theorem commandByte_performed (t : Transaction) {b : Byte} {s : State} (hb : s.cmdByte = b) :
    ∃ stat, performAll (frameBytePositions t 0) s = afterCommandByte t b stat s ∧
      ∀ k : Fin 8, ∀ v, s.dataIn[k.val]? = some v → stat.getLsbD (7 - k.val) = bit v := by
  obtain ⟨r, e, h⟩ := performAll_frameByte_spec t 0 hb
  exact ⟨r, by rw [e]; simp [afterFrameByte, storeByte, afterByte, afterCommandByte, frameByte, State.rxbByte, Held.read], h⟩

/-- The instruction that issues a TRANSACT. -/
def transactInstr (t : Transaction) : Instr :=
  if t.isRead then .transactR (t.address.setWidth 8) t.payload else .transactW (t.address.setWidth 8) t.payload

/-- It issues it. -/
theorem exec_transactInstr (t : Transaction) (s : State) : exec (transactInstr t) s = issue (.transact t) s := by
  obtain ⟨a, p, r⟩ := t
  cases r
  · exact exec_transactW a p s
  · exact exec_transactR a p s

@[simp] theorem hostOpOf_transactInstr (t : Transaction) : hostOpOf (transactInstr t) = some (.transact t) := by
  obtain ⟨a, p, r⟩ := t
  cases r <;> simp [transactInstr, hostOpOf]

/-- A host command word spells INIT, XFER or a TRANSACT with a 7-bit address, or is refused (R76, R78, R80). -/
theorem decodeHcw_instr {w : Hcw} {i : Instr} (h : decodeHcw w = .instr i) :
    i = .init ∨ (∃ b, i = .xfer b) ∨ ∃ t, i = transactInstr t := by
  have narrow : ∀ a : BitVec 8, addressFits a = true → ∃ a' : Addr7, a = a'.setWidth 8 := fun a ha =>
    ⟨a.setWidth 7, narrowAddress_eq_some.1 (by simp [narrowAddress, ha])⟩
  unfold decodeHcw decodeInit decodeXfer decodeTransact at h
  repeat' split at h
  all_goals first
    | (cases h; done)
    | skip
  · cases h; exact .inl rfl
  · cases h; exact .inr (.inl ⟨_, rfl⟩)
  · rename_i ha _
    cases h
    obtain ⟨a, ha⟩ := narrow _ (by simpa using ha)
    exact .inr (.inr ⟨⟨a, hcwPayload w, true⟩, by simp [transactInstr, ha]⟩)
  · rename_i ha _
    cases h
    obtain ⟨a, ha⟩ := narrow _ (by simpa using ha)
    exact .inr (.inr ⟨⟨a, hcwPayload w, false⟩, by simp [transactInstr, ha]⟩)

/-- The wire instruction of a command byte (R71). -/
def wireInstr (isRead : Bool) (a : Addr7) : Instr := if isRead then .cmdRead a else .cmdWrite a

theorem exec_wireInstr (isRead : Bool) (a : Addr7) (s : State) :
    exec (wireInstr isRead a) s = sendCommandByte (commandByte isRead a) s := by cases isRead <;> rfl

/-- A byte is the command byte of the wire instruction it decodes to (R71, R73). -/
theorem decodeWire_eq (b : Byte) : ∃ isRead a, decodeWire b = wireInstr isRead a ∧ commandByte isRead a = b := by
  refine ⟨b.msb, b.setWidth 7, rfl, ?_⟩
  revert b; decide

/-- A step with an operation in progress answers the second agent's call that lands, stopped or not (R156, R157). -/
theorem step_of_landing {s : State} (hq : s.seq ≠ .idle) {r : Result} (hr : landing s = some r) : step s = r := by
  have ha : advance s = r := by
    unfold advance stoppedOutcome
    rw [hr]
    split <;> rfl
  unfold step nextInstr
  split
  · rename_i i s' h
    split at h
    · contradiction
    · rename_i t hs
      cases h
      obtain ⟨isRead, a, hd, hb⟩ := decodeWire_eq s.cmdByte
      rw [hd, exec_wireInstr, hb]
      unfold sendCommandByte
      rw [hs]
      simp only [if_true]
      split
      · simp [stoppedOutcome, hr]
      · simp [frameBytePositions, bytePositions, bitIndices, slotSteps, runSeq, hr]
    · cases h
  · rename_i x h
    split at h
    · contradiction
    · cases h
    · cases h; exact ha

/-- Everything an instruction that answers a next state can have done. -/
theorem exec_next {i : Instr} {s t : State} (h : exec i s = .next t) :
    (i = .init ∧ entryCheck .init s = none ∧ ∃ o, t = (afterInit s).withOverlaps o) ∨
    (∃ b r o, i = .xfer b ∧ entryCheck (.xfer b) s = none ∧ t = (afterXfer b r s).withOverlaps o) ∨
    (∃ tr stat result o, i = transactInstr tr ∧
      entryCheck (.transact tr) s = none ∧ t = (afterTransact tr stat result s).withOverlaps o) ∨
    (∃ isRead a tr stat o, i = wireInstr isRead a ∧ s.fault = [] ∧
      s.seq = .transact tr .selAssert ∧ s.cmdByte = commandByte isRead a ∧
      t = (afterCommandByte tr (commandByte isRead a) stat s).withOverlaps o) := by
  have wire : ∀ isRead a, sendCommandByte (commandByte isRead a) s = .next t → ∃ tr stat o, s.fault = [] ∧
      s.seq = .transact tr .selAssert ∧ s.cmdByte = commandByte isRead a ∧
      t = (afterCommandByte tr (commandByte isRead a) stat s).withOverlaps o := by
    intro isRead a h
    obtain ⟨hf, hb, tr, o, hq, rfl⟩ := sendCommandByte_next h
    obtain ⟨stat, e, -⟩ := commandByte_performed tr hb
    exact ⟨tr, stat, o, hf, hq, hb, by rw [e]⟩
  cases i with
  | init =>
    obtain ⟨he, o, rfl⟩ := issue_next h
    exact .inl ⟨rfl, he, o, by rw [init_performed]⟩
  | xfer b =>
    obtain ⟨he, o, rfl⟩ := issue_next h
    obtain ⟨r, e, -⟩ := xfer_performed b s
    exact .inr (.inl ⟨b, r, o, rfl, he, by rw [e]⟩)
  | transactW a p =>
    obtain ⟨a, rfl, h'⟩ := transact_next h
    obtain ⟨he, o, rfl⟩ := issue_next h'
    obtain ⟨stat, result, e, -⟩ := transact_performed ⟨a, p, false⟩ s
    exact .inr (.inr (.inl ⟨⟨a, p, false⟩, stat, result, o, rfl, he, by rw [e]⟩))
  | transactR a p =>
    obtain ⟨a, rfl, h'⟩ := transact_next h
    obtain ⟨he, o, rfl⟩ := issue_next h'
    obtain ⟨stat, result, e, -⟩ := transact_performed ⟨a, p, true⟩ s
    exact .inr (.inr (.inl ⟨⟨a, p, true⟩, stat, result, o, rfl, he, by rw [e]⟩))
  | cmdWrite a =>
    obtain ⟨tr, stat, o, hf, hq, hb, rfl⟩ := wire false a h
    exact .inr (.inr (.inr ⟨false, a, tr, stat, o, rfl, hf, hq, hb, rfl⟩))
  | cmdRead a =>
    obtain ⟨tr, stat, o, hf, hq, hb, rfl⟩ := wire true a h
    exact .inr (.inr (.inr ⟨true, a, tr, stat, o, rfl, hf, hq, hb, rfl⟩))

end Sys2Proof.Machine
end

