-- ==== Sys2Proof/Laws/Order.lean ====
section
/-! SUPPORT. The order of positions (`10_state.md` R35) as the sequencer keeps it: what SEQ is after a position, and that
each operation's positions follow one another. -/

namespace Sys2Proof.Machine

/-- What a position does leaves SEQ alone; `perform` sets it. -/
@[simp] theorem act_seq (p : Seq) (s : State) : (act p s).seq = s.seq := by
  cases p with
  | idle => rfl
  | init k => fin_cases k <;> rfl
  | xfer b i st => cases st <;> simp only [act, shiftStep] <;> split <;> rfl
  | transact t pos =>
    cases pos with
    | selAssert => rfl
    | selDeassert => rfl
    | byte j i st =>
      cases st <;> simp only [act, frameStep, shiftStep, storeByte] <;> (repeat' split) <;> rfl

@[simp] theorem shiftStep_seq (b : Byte) (i : Fin 8) (st : SlotStep) (s : State) : (shiftStep b i st s).seq = s.seq :=
  act_seq (.xfer b i st) s

@[simp] theorem countdown_seq (s : State) : (countdown s).seq = s.seq := by
  unfold countdown; split <;> rfl

/-- A return leaves SEQ Idle. -/
@[simp] theorem complete_seq (s : State) : (complete s).seq = .idle := by
  unfold complete; split <;> simp_all

/-- SEQ after a position that has one after it is that position. -/
theorem perform_seq_of_next {p q : Seq} (h : p.next = some q) (s : State) : (perform p s).seq = p := by
  rw [perform_of_next h, act_seq]

/-- SEQ after an operation's last position is Idle. -/
theorem perform_seq_of_last {p : Seq} (h : p.next = none) (s : State) : (perform p s).seq = .idle := by
  rw [perform_of_last h, complete_seq]

/-- The positions of a list follow `p` and one another. -/
def Linked : Seq → List Seq → Prop
  | _, [] => True
  | p, q :: qs => p.next = some q ∧ Linked q qs

theorem linked_init : Linked (.init 0) HostOp.init.positions.tail := by
  simp [HostOp.positions, Linked, Seq.next]

theorem linked_xfer (b : Byte) : Linked (.xfer b 7 .s1) (HostOp.xfer b).positions.tail := by
  simp [HostOp.positions, bytePositions, bitIndices, slotSteps, Linked, Seq.next, nextInByte, SlotStep.next]

set_option maxRecDepth 20000 in
theorem linked_transact (t : Transaction) : Linked (.transact t .selAssert) (HostOp.transact t).positions.tail := by
  simp [HostOp.positions, frameBytePositions, bytePositions, bitIndices, slotSteps, Linked, Seq.next, nextInByte,
    SlotStep.next, FramePos.next]

theorem linked_commandByte (t : Transaction) : Linked (.transact t .selAssert) (frameBytePositions t 0) := by
  simp [frameBytePositions, bytePositions, bitIndices, slotSteps, Linked, Seq.next, nextInByte, SlotStep.next, FramePos.next]

/-- Every operation's positions start with one and go on from it in order. -/
theorem positions_linked (op : HostOp) : ∃ p rest, op.positions = p :: rest ∧ Linked p rest := by
  cases op with
  | init => exact ⟨_, _, rfl, linked_init⟩
  | xfer b => exact ⟨_, _, rfl, linked_xfer b⟩
  | transact t => exact ⟨_, _, rfl, linked_transact t⟩

end Sys2Proof.Machine
end

