-- ==== Sys2Proof/Laws/PerInstr.lean ====
section
/-! SUPPORT. The statements made of every instruction, one lemma per constructor. -/

namespace Sys2Proof.Laws

/-- What a code must be to match a row of the opcode map (`30_encoding.md` R83): its bits under the row's mask. -/
def matchesRow (nbits mask value : Nat) : Code → Prop
  | .hcw w => nbits = 48 ∧ w &&& BitVec.ofNat 48 mask = BitVec.ofNat 48 value
  | .wire b => nbits = 8 ∧ b &&& BitVec.ofNat 8 mask = BitVec.ofNat 8 value

/-- A code is in the row of `i`'s mnemonic in the opcode map (R83). -/
def inRowOf (i : Instr) (c : Code) : Prop :=
  match i with
  | .init => matchesRow 48 0xFFFFFFFFFFFF 0x000000000000 c
  | .xfer _ => matchesRow 48 0xFFFFFFFFFF00 0x100000000000 c
  | .transactW _ _ => matchesRow 48 0xFF8000000000 0x200000000000 c
  | .transactR _ _ => matchesRow 48 0xFF8000000000 0x210000000000 c
  | .cmdWrite _ => matchesRow 8 0x80 0x00 c
  | .cmdRead _ => matchesRow 8 0x80 0x80 c

/-- A well-formed instruction encodes as a word of its own row of the opcode map (R83). -/
def EncodesInItsRow.Statement (i : Instr) : Prop := i.wellFormed = true → inRowOf i (encode i)

theorem EncodesInItsRow.init : EncodesInItsRow.Statement .init := fun _ => ⟨rfl, rfl⟩

theorem EncodesInItsRow.xfer (outByte : Byte) : EncodesInItsRow.Statement (.xfer outByte) := by
  refine fun _ => ⟨rfl, BitVec.eq_of_getLsbD_eq fun k hk => ?_⟩
  rw [BitVec.getLsbD_and, getLsbD_encodeXfer]
  by_cases h : k < 8
  · rw [if_pos h]; interval_cases k <;> simp
  · rw [if_neg h]; interval_cases k <;> simp

/-- TRANSACT's word under its rows' mask: `OP` = 2, RD, and bit 39 clear for an address below 0x80. -/
theorem transact_row (r : Bool) (a : BitVec 8) (p : Word) (h : addressFits a = true) :
    encodeTransact r a p &&& 0xFF8000000000 = if r then 0x210000000000 else 0x200000000000 := by
  refine BitVec.eq_of_getLsbD_eq fun k hk => ?_
  have h7 : a.getLsbD 7 = false := by simpa [addressFits, BitVec.msb_eq_getLsbD_last] using h
  rw [BitVec.getLsbD_and, getLsbD_encodeTransact]
  by_cases h32 : k < 32
  · rw [if_pos h32]; cases r <;> interval_cases k <;> simp
  · rw [if_neg h32]
    by_cases h40 : k < 40
    · rw [if_pos h40]
      by_cases h39 : k = 39
      · subst h39; rw [show 39 - 32 = 7 from rfl, h7]; cases r <;> rfl
      · cases r <;> interval_cases k <;> first | (exact absurd rfl h39) | simp
    · rw [if_neg h40]; cases r <;> interval_cases k <;> rfl

theorem EncodesInItsRow.transactW (address : BitVec 8) (payload : Word) :
    EncodesInItsRow.Statement (.transactW address payload) :=
  fun h => ⟨rfl, transact_row false address payload h⟩

theorem EncodesInItsRow.transactR (address : BitVec 8) (payload : Word) :
    EncodesInItsRow.Statement (.transactR address payload) :=
  fun h => ⟨rfl, transact_row true address payload h⟩

theorem EncodesInItsRow.cmdWrite (address : Addr7) : EncodesInItsRow.Statement (.cmdWrite address) := by
  refine fun _ => ⟨rfl, ?_⟩
  revert address; decide

theorem EncodesInItsRow.cmdRead (address : Addr7) : EncodesInItsRow.Statement (.cmdRead address) := by
  refine fun _ => ⟨rfl, ?_⟩
  revert address; decide

end Sys2Proof.Laws
end

