-- ==== Sys2Proof/Laws/Trace.lean ====
section
/-! SUPPORT. The trace and the line state together: every position keeps the lines and modes what the trace says they
are (`10_state.md` R26 to R29, R37), and the reads of an operation's events are counted. -/

namespace Sys2Proof.Machine

/-- Matching the trace rests on three fields only. -/
theorem State.MatchesTrace.congr {s t : State} (h : s.MatchesTrace) (hl : t.lines = s.lines) (hm : t.modes = s.modes)
    (ht : t.trace = s.trace) : t.MatchesTrace := by
  obtain ⟨a, b⟩ := h
  refine ⟨fun l => ?_, fun l => ?_⟩
  · rw [ht, ← a l]; cases l <;> simp [State.line, hl]
  · rw [ht, ← b l]; cases l <;> simp [State.mode, hm]

/-- A line written is the line last written in the trace (R27, R91). -/
theorem matchesTrace_lineWrite {s : State} (h : s.MatchesTrace) (l : OutLine) (v : Level) :
    (lineWrite l v s).MatchesTrace := by
  obtain ⟨a, b⟩ := h
  refine ⟨fun l' => ?_, fun l' => ?_⟩
  · have := a l'
    simp only [lineWrite, State.line_emit, State.line_setLine, State.emit_trace, State.setLine_trace, lastWrite,
      List.foldl_append, List.foldl_cons, List.foldl_nil] at this ⊢
    split <;> [rfl; exact this]
  · simp [lineWrite, lastMode]; simpa [lastMode] using b l'

/-- A mode set is the mode last set in the trace (R26, R90). -/
theorem matchesTrace_lineMode {s : State} (h : s.MatchesTrace) (l : Line) (m : Mode) :
    (lineMode l m s).MatchesTrace := by
  obtain ⟨a, b⟩ := h
  refine ⟨fun l' => ?_, fun l' => ?_⟩
  · simp [lineMode, lastWrite]; simpa [lastWrite] using a l'
  · simp [lineMode, State.mode_setMode, lastMode]; split <;> [rfl; simpa [lastMode] using b l']

/-- A read changes no line and no mode (R92). -/
theorem matchesTrace_lineRead {s : State} (h : s.MatchesTrace) : (lineRead s).MatchesTrace := by
  obtain ⟨a, b⟩ := h
  refine ⟨fun l' => ?_, fun l' => ?_⟩
  · have := a l'; cases l' <;> simp [State.line, lastWrite] at this ⊢ <;> exact this
  · have := b l'; cases l' <;> simp [State.mode, lastMode] at this ⊢ <;> exact this

/-- A Delay, Call or Return event says nothing of the lines (R37, R93). -/
theorem matchesTrace_emit {s : State} (h : s.MatchesTrace) (e : Event)
    (he : (∀ l v, e ≠ .write l v) ∧ (∀ l m, e ≠ .mode l m) ∧ ∀ v, e ≠ .read v) : (s.emit e).MatchesTrace := by
  obtain ⟨a, b⟩ := h
  cases e <;> simp at he <;> refine ⟨fun l' => ?_, fun l' => ?_⟩ <;> simp [lastWrite, lastMode] <;>
    first | simpa [lastWrite] using a l' | simpa [lastMode] using b l'

theorem matchesTrace_shiftStep {s : State} (h : s.MatchesTrace) (b : Byte) (i : Fin 8) (st : SlotStep) :
    (shiftStep b i st s).MatchesTrace := by
  have h' : (if i = 7 ∧ st = .s1 then loadByte b s else s).MatchesTrace := by
    split; exacts [h.congr rfl rfl rfl, h]
  unfold shiftStep
  revert h'
  generalize (if i = 7 ∧ st = .s1 then loadByte b s else s) = s'
  intro h'
  cases st <;> simp only [shiftBit]
  · exact matchesTrace_lineWrite h' _ _
  · exact matchesTrace_emit h' _ (by simp)
  · exact matchesTrace_lineWrite h' _ _
  · exact (matchesTrace_lineRead h').congr rfl rfl rfl
  · exact matchesTrace_emit h' _ (by simp)
  · exact matchesTrace_lineWrite h' _ _

theorem matchesTrace_act {s : State} (h : s.MatchesTrace) (p : Seq) : (act p s).MatchesTrace := by
  cases p with
  | idle => exact h
  | init k =>
    fin_cases k
    · exact matchesTrace_lineMode h _ _
    · exact matchesTrace_lineWrite h _ _
    · exact matchesTrace_lineMode h _ _
    · exact matchesTrace_lineWrite h _ _
    · exact matchesTrace_lineMode h _ _
    · exact (matchesTrace_lineMode h .dataIn (.input Config.dinPull)).congr rfl rfl rfl
  | xfer b i st => exact matchesTrace_shiftStep h _ _ _
  | transact t pos =>
    cases pos with
    | selAssert => exact matchesTrace_lineWrite h _ _
    | selDeassert => exact matchesTrace_lineWrite h _ _
    | byte j i st =>
      simp only [act, frameStep]
      split
      · unfold storeByte
        split <;> exact (matchesTrace_shiftStep h _ _ _).congr rfl rfl rfl
      · exact matchesTrace_shiftStep h _ _ _

theorem matchesTrace_complete {s : State} (h : s.MatchesTrace) : (complete s).MatchesTrace := by
  unfold complete
  split
  · exact h
  · exact (matchesTrace_emit h (.ret .init .none) (by simp)).congr rfl rfl rfl
  · exact (matchesTrace_emit h (.ret .xfer (.byte s.rxbByte)) (by simp)).congr rfl rfl rfl
  · rename_i t _ _
    exact (matchesTrace_emit h (.ret t.name (.word s.accWord)) (by simp)).congr rfl rfl rfl

/-- Every position keeps the line state what the trace says it is. -/
theorem matchesTrace_perform {s : State} (h : s.MatchesTrace) (p : Seq) : (perform p s).MatchesTrace := by
  have := matchesTrace_act (h.congr rfl rfl rfl : ({ s with seq := p } : State).MatchesTrace) p
  unfold perform
  split; exacts [this, matchesTrace_complete this]

/-! ### Counting reads -/

theorem readCount_append (es fs : List Event) : readCount (es ++ fs) = readCount es + readCount fs := by
  simp [readCount]

theorem readCount_byteEvents (out received : Byte) : readCount (byteEvents out received) = 8 := by
  simp [readCount, byteEvents, slotEvents]

theorem readCount_frameEvents (cmd : Byte) (payload : Word) (stat : Byte) (result : Word) :
    readCount (frameEvents cmd payload stat result) = 40 := by
  simp only [frameEvents, readCount_append, readCount_byteEvents]
  simp [readCount]

end Sys2Proof.Machine
end

