-- ==== Sys2Proof/Tests/Slice0.lean ====
section
/-! SUPPORT. The model's own tests: ill-formed terms, words written out from the encoding tables, the vectors of
`95_test_vectors.md` as single steps, and a witness for the hypotheses of every statement. -/

namespace Sys2Proof.Tests

open Sys2Proof Sys2Proof.Machine

/-! ### Helpers -/

/-- The state an outcome gives, if it gives one. -/
def nextOf : Result → Option State
  | .next t => some t
  | .fault _ => none
  | .refused _ => none

/-- The state an instruction leaves. -/
def after (i : Instr) (s : State) : State := (nextOf (exec i s)).getD s

theorem exec_after {i : Instr} {s : State} (h : (nextOf (exec i s)).isSome = true) : exec i s = .next (after i s) := by
  unfold after
  cases hr : exec i s <;> simp_all [nextOf]

/-- Initialised and between operations, with the levels the next reads give. -/
def ready (levels : List Level) : State :=
  { State.reset with
    initDone := true
    modes := ⟨.output, .output, .input .none, .output⟩
    lines := ⟨.val .high, .undef, .val .high⟩
    dataIn := levels }

/-- In the middle of an operation. -/
def busy (q : Seq) : State := { ready [] with seq := q }

/-- Stopped by an earlier fault. -/
def stopped : State := { State.reset with fault := [.notInitialized (.xfer 0x00)] }

/-- The state INIT leaves from reset. -/
def booted : State := afterInit State.reset

/-- The frame whose first byte is `0x21`, SELECT just asserted. -/
def selected : State :=
  { busy (.transact ⟨0x21, 0x12345678, false⟩ .selAssert) with cmd := .val 0x21, lines := ⟨.val .high, .undef, .val .low⟩ }

theorem booted_ready : booted.Ready := ⟨rfl, rfl, rfl, rfl⟩
theorem ready_ready (levels : List Level) : (ready levels).Ready := ⟨rfl, rfl, rfl, rfl⟩
theorem reset_readyForInit : State.reset.ReadyForInit := ⟨rfl, rfl, rfl⟩

/-! ### Ill-formed terms -/

/-- R78: an address of 0x80 or more is no operand of TRANSACT_W. -/
theorem test_wellFormed_transactW :
    (Instr.transactW 0x80 0).wellFormed = false ∧ (Instr.transactW 0xFF 0).wellFormed = false ∧
    (Instr.transactW 0x7F 0).wellFormed = true := by decide
theorem test_wellFormed_transactR :
    (Instr.transactR 0x80 0).wellFormed = false ∧ (Instr.transactR 0xFF 0).wellFormed = false ∧
    (Instr.transactR 0x7F 0).wellFormed = true := by decide

/-! ### Words written out bit by bit (R71, R77, R87; `95_test_vectors.md` §2.1) -/

/-- `OP` = 0000, all else zero. -/
theorem test_decode_init : decodeHcw 0b000000000000000000000000000000000000000000000000 = .instr .init := by decide
/-- `OP` = 0001, 36 zeros, OUTB = 10100101. -/
theorem test_decode_xfer : decodeHcw 0b000100000000000000000000000000000000000010100101 = .instr (.xfer 0xA5) := by decide
/-- `OP` = 0010, 000, RD = 0, 0, ADDR = 0100001, PAYLOAD. -/
theorem test_decode_transactW :
    decodeHcw 0b001000000010000100010010001101000101011001111000 = .instr (.transactW 0x21 0x12345678) := by decide
/-- `OP` = 0010, 000, RD = 1, 0, ADDR = 0100001, PAYLOAD = 0. -/
theorem test_decode_transactR :
    decodeHcw 0b001000010010000100000000000000000000000000000000 = .instr (.transactR 0x21 0) := by decide
/-- `R` = 0, ADDR = 0100001. -/
theorem test_decode_cmdWrite : decodeWire 0b00100001 = .cmdWrite 0x21 := by decide
/-- `R` = 1, ADDR = 0100001. -/
theorem test_decode_cmdRead : decodeWire 0b10100001 = .cmdRead 0x21 := by decide

/-- The refused words of §2.1. -/
theorem test_decode_refused :
    decodeHcw 0x208000000000 = .reject .addressRange ∧ decodeHcw 0x218000000000 = .reject .addressRange ∧
    decodeHcw 0x300000000000 = .reject (.reservedOp 3) ∧ decodeHcw 0xF00000000000 = .reject (.reservedOp 15) ∧
    decodeHcw 0x000000000001 = .reject .mustBeZero ∧ decodeHcw 0x010000000000 = .reject .mustBeZero ∧
    decodeHcw 0x100000000100 = .reject .mustBeZero ∧ decodeHcw 0x220000000000 = .reject .mustBeZero ∧
    decodeHcw 0x240000000000 = .reject .mustBeZero ∧ decodeHcw 0x280000000000 = .reject .mustBeZero := by decide

/-- The table's view of the decoder, one word of each row. -/
theorem test_decodeTableWord :
    decodeTableWord 48 0x000000000000 = some .init ∧ decodeTableWord 48 0x1000000000A5 = some (.xfer 0xA5) ∧
    decodeTableWord 48 0x202112345678 = some (.transactW 0x21 0x12345678) ∧
    decodeTableWord 48 0x212100000000 = some (.transactR 0x21 0) ∧ decodeTableWord 8 0x21 = some (.cmdWrite 0x21) ∧
    decodeTableWord 8 0xA1 = some (.cmdRead 0x21) ∧ decodeTableWord 48 0x300000000000 = none := by decide

/-- The notation of R84. -/
theorem test_notation :
    notationOf .init = some "INIT" ∧ notationOf (.xfer 0xA5) = some "XFER 0xA5" ∧
    notationOf (pseudoWrite 0x21 0x1388) = some "TRANSACT_W 0x21, 0x00001388" ∧
    notationOf (pseudoRead 0x21) = some "TRANSACT_R 0x21, 0x00000000" := by decide

/-! ### Vectors of `95_test_vectors.md` -/

/-- I-1: INIT from reset leaves DATA_OUT `Undef`, CLOCK and SELECT High, INIT_DONE = 1. -/
theorem test_init_I1 : (after .init State.reset).lines = ⟨.val .high, .undef, .val .high⟩ ∧
    (after .init State.reset).initDone = true ∧ (after .init State.reset).trace.length = 8 := by decide +kernel

/-- I-3: a later INIT keeps the bit XFER 0x01 left on DATA_OUT. -/
theorem test_init_I3 :
    (after .init (after (.xfer 0x01) (ready []))).lines = ⟨.val .high, .val .high, .val .high⟩ := by decide +kernel

/-- X-7: the first read is bit 7 of the byte returned. -/
theorem test_xfer_X7 :
    (after (.xfer 0x00) (ready [.low, .high, .low, .high, .low, .high, .low, .high])).trace.getLast? =
      some (.ret .xfer (.byte 0x55)) := by decide +kernel

/-- The S1 levels of `XFER 0xA5` in slot order (§2.3). -/
theorem test_xfer_levels :
    ((after (.xfer 0xA5) (ready (wireLevels 0xA5#8))).trace.filterMap fun e => match e with
      | .write .dataOut v => some v
      | _ => none) = [.high, .low, .high, .low, .low, .high, .low, .high] := by decide +kernel

/-- T-7: the status byte 0xFF is discarded. -/
theorem test_transactW_T7 :
    (after (.transactW 0x10 0) (ready (wireLevels 0xFF01020304#40))).trace.getLast? =
      some (.ret .transactW (.word 0x01020304)) := by decide +kernel

/-- T-8: the frame A1 00 00 00 00, and the result is not sign-extended. -/
theorem test_transactR_T8 :
    (after (.transactR 0x21 0) (ready (wireLevels 0x0080000000#40))).trace.getLast? =
      some (.ret .transactR (.word 0x80000000)) ∧
    (latched (after (.transactR 0x21 0) (ready (wireLevels 0x0080000000#40))).trace).frames =
      [wireBits 0xA100000000#40] := by decide +kernel

/-- The command byte 0x21 in its frame: eight slots, and the byte sampled goes to STAT. -/
theorem test_cmdWrite : (after (.cmdWrite 0x21) { selected with dataIn := wireLevels 0x5A#8 }).stat = .val 0x5A ∧
    (after (.cmdWrite 0x21) { selected with dataIn := wireLevels 0x5A#8 }).trace.length = 48 := by decide +kernel

/-- The command byte 0xA1 in its frame. -/
theorem test_cmdRead :
    (after (.cmdRead 0x21)
      { selected with seq := .transact ⟨0x21, 0, true⟩ .selAssert, cmd := .val 0xA1, dataIn := wireLevels 0x5A#8 }).txb =
      .val 0xA1 := by decide +kernel

/-- The state a fault of `exec` stops in. -/
def stoppedBy (r : Result) : Option State :=
  match r with
  | .fault f => some f.state
  | _ => none

/-- X-9: XFER from reset raises NotInitialized with no event. -/
theorem test_xfer_X9 : (stoppedBy (exec (.xfer 0x00) State.reset)).map (fun s => (s.fault, s.trace)) =
    some ([.notInitialized (.xfer 0x00)], []) := by decide +kernel

/-- F-1: a second agent's XFER after `Byte(2, 5, S3)`, which is step 112 of the frame. -/
theorem test_overlap_F1 :
    (stoppedBy (exec (.transactW 0x21 0x12345678) { ready [] with overlaps := [⟨112, 0x100000000000⟩] })).map
      (fun s => (s.lines.select, s.lines.clock, s.seq, s.final)) =
    some (.val .low, .val .low, .transact ⟨0x21, 0x12345678, false⟩ (.byte 2 5 .s3), false) := by decide +kernel

/-- F-3: after the fault the INIT takes no step. -/
theorem test_stuck_F3 : (stoppedBy (exec .init stopped)) = some stopped := by decide +kernel

/-- F-4: a refused word from reset raises no fault. -/
theorem test_refused_F4 : nextOf (step { State.reset with program := [0x300000000000] }) = none ∧
    stoppedBy (step { State.reset with program := [0x300000000000] }) = none := by decide +kernel

/-- A placed word is what the next step runs. -/
theorem test_withFetchWord (s : State) :
    step (s.withFetchWord 48 0) = exec .init { s with seq := .idle } ∧
    step (s.withFetchWord 8 0xA1) = exec (.cmdRead 0x21) (s.withFetchWord 8 0xA1) := by
  refine ⟨rfl, ?_⟩
  simp [step, State.withFetchWord, placeWord, nextInstr, State.cmdByte, Held.read, decodeWire,
    show (0xA1#8).msb = true from rfl]

/-! ### A witness for the hypotheses of every statement

Each theorem is named after the statement whose hypotheses its state and operands meet. -/

theorem witness_DecodeEncodeRoundTrip :
    Instr.init.wellFormed = true ∧ (Instr.xfer 0xFF).wellFormed = true ∧ (Instr.transactW 0x7F 0).wellFormed = true ∧
    (Instr.transactR 0x00 0xFFFFFFFF).wellFormed = true ∧ (Instr.cmdWrite 0x7F).wellFormed = true ∧
    (Instr.cmdRead 0x00).wellFormed = true := by decide

theorem witness_CodeHasOneMeaning :
    decode (.hcw 0x217FFFFFFFFF) = .instr (.transactR 0x7F 0xFFFFFFFF) ∧ decode (.wire 0x80) = .instr (.cmdRead 0x00) ∧
    decode (.wire 0x7F) = .instr (.cmdWrite 0x7F) := by decide

theorem witness_OperandsAreTheNamedBits :
    decodeHcw 0x000000000000 = .instr .init ∧ decodeHcw 0x1000000000FF = .instr (.xfer 0xFF) ∧
    decodeHcw 0x207F80000001 = .instr (.transactW 0x7F 0x80000001) ∧
    decodeHcw 0x210000000000 = .instr (.transactR 0x00 0x00000000) := by decide

/-- A state whose program is one word. -/
def issuing (s : State) (w : Hcw) : State := { s with program := [w] }

theorem witness_RefusedHostWords :
    (issuing State.reset 0x208000000000).seq = .idle ∧ (issuing State.reset 0x208000000000).program = [0x208000000000] ∧
    decodeHcw 0x208000000000 = .reject .addressRange ∧ (issuing stopped 0x300000000000).seq = .idle ∧
    decodeHcw 0x300000000000 = .reject (.reservedOp 3) ∧ nextOf (step State.reset) = some State.reset := by decide +kernel

theorem witness_WideAddressRefused :
    0x80 ≤ (0x80 : BitVec 8).toNat ∧ 0x80 ≤ (0xFF : BitVec 8).toNat ∧
    (0x208000000000 : Hcw).getLsbD 39 = true ∧ (0x218000000000 : Hcw).getLsbD 39 = true := by decide

theorem witness_StepRunsDecodedInstruction :
    (issuing (ready []) 0x1000000000A5).seq = .idle ∧ decodeHcw 0x1000000000A5 = .instr (.xfer 0xA5) ∧
    selected.seq = .transact ⟨0x21, 0x12345678, false⟩ .selAssert ∧ selected.cmd = .val 0x21 := by decide

theorem witness_StepWaitsForTheHost :
    State.reset.seq = .idle ∧ State.reset.program = [] ∧ State.reset.fault = [] := by decide

/-- An INIT, an XFER at its first and last but one position, and a frame at the end of a byte and of its last. -/
theorem witness_BusyStepPerformsNextPosition :
    (busy (.init 4)).fault = [] ∧ (busy (.init 4)).overlaps = [] ∧ (busy (.init 4)).seq.next = some (.init 5) ∧
    (busy (.xfer 0xA5 7 .s1)).seq.next = some (.xfer 0xA5 7 .s2) ∧
    (busy (.xfer 0xA5 0 .s5)).seq.next = some (.xfer 0xA5 0 .s6) ∧
    (busy (.transact ⟨0x21, 0, true⟩ (.byte 0 0 .s6))).seq.next = some (.transact ⟨0x21, 0, true⟩ (.byte 1 7 .s1)) ∧
    (busy (.transact ⟨0x21, 0, true⟩ (.byte 4 0 .s6))).seq.next = some (.transact ⟨0x21, 0, true⟩ .selDeassert) ∧
    (busy (.xfer 0xA5 7 .s1)).seq ≠ .transact ⟨0x21, 0, true⟩ .selAssert := by decide

theorem witness_PositionsInFixedOrder :
    HostOp.init.positions.getLast? = some (.init 5) ∧ (HostOp.xfer 0xA5).positions.getLast? = some (.xfer 0xA5 0 .s6) ∧
    Seq.xfer 0xA5 7 .s6 ∈ (HostOp.xfer 0xA5).positions ∧
    (Seq.xfer 0xA5 7 .s6).next = some (.xfer 0xA5 6 .s1) := by decide +kernel

theorem witness_OperationIsItsSteps :
    entryCheck .init State.reset = none ∧ entryCheck (.xfer 0xA5) (ready []) = none ∧
    entryCheck (.transact ⟨0x21, 0, true⟩) (ready []) = none := ⟨rfl, rfl, rfl⟩

theorem witness_EntryCheckOrder :
    (hostOpOf .init = some .init ∧ hostOpOf (.xfer 0xA5) = some (.xfer 0xA5) ∧
      hostOpOf (.transactW 0x7F 0) = some (.transact ⟨0x7F, 0, false⟩) ∧
      hostOpOf (.transactR 0x00 0) = some (.transact ⟨0x00, 0, true⟩)) ∧
    stopped.fault ≠ [] ∧ (selected.fault = [] ∧ selected.seq ≠ .idle) ∧
    ((busy (.xfer 0xA5 0 .s5)).fault = [] ∧ (busy (.xfer 0xA5 0 .s5)).seq ≠ .idle) ∧
    (State.reset.fault = [] ∧ State.reset.seq = .idle ∧ HostOp.xfer 0xA5 ≠ .init ∧ State.reset.initDone = false) ∧
    ((ready []).fault = [] ∧ (ready []).seq = .idle ∧ (ready []).initDone = true ∧ (ready []).overlaps = []) := by decide

/-- A stopped BBT with an operation in progress, and a second agent's word that is due. -/
def stoppedBusy (w : Hcw) : State :=
  { busy (.xfer 0xA5 3 .s3) with
    fault := [.reentrant .init (.xfer 0xA5 3 .s3)], overlaps := [⟨0, w⟩] }

/-- R157: a due word that spells no operation is refused where BBT is stopped, and BBT is stuck on one that spells one. -/
theorem test_refused_before_stopped :
    (match step (stoppedBusy 0x300000000000) with
      | .refused r => r.state.map fun t => (t.refusals, t.fault, t.overlaps)
      | _ => none) = some ([0x300000000000], [.reentrant .init (.xfer 0xA5 3 .s3)], []) ∧
    (stoppedBy (step (stoppedBusy 0x000000000000))).map (fun t => (t.refusals, t.fault.length, t.overlaps)) =
      some ([], 1, []) := by decide +kernel

theorem witness_StoppedTakesNoStep :
    (stopped.fault ≠ [] ∧ stopped.seq = .idle ∧ stopped.program = []) ∧
    ({ stopped with seq := .init 2 }.seq ≠ .idle ∧
      ∀ w rest, { stopped with seq := .init 2 }.overlaps ≠ { after := 0, word := w } :: rest) ∧
    ((issuing stopped 0x000000000000).seq = .idle ∧ (issuing stopped 0x000000000000).program = [0x000000000000] ∧
      decodeHcw 0x000000000000 = .instr .init) :=
  ⟨by decide, ⟨by decide, fun _ _ => by simp [stopped, State.reset]⟩, by decide⟩

/-- A refused word and a good one, each at a stopped BBT and at one that is not, and at the command byte too. -/
theorem witness_DueCallOutcome :
    ((stoppedBusy 0x300000000000).seq ≠ .idle ∧ (stoppedBusy 0x300000000000).fault ≠ [] ∧
      (stoppedBusy 0x300000000000).overlaps = [⟨0, 0x300000000000⟩] ∧
      decodeHcw 0x300000000000 = .reject (.reservedOp 3)) ∧
    (decodeHcw 0x1000000000FF = .instr (.xfer 0xFF) ∧ hostOpOf (.xfer 0xFF) = some (.xfer 0xFF)) ∧
    ({ selected with overlaps := [⟨0, 0x1000000000FF⟩] }.seq ≠ .idle ∧
      { selected with overlaps := [⟨0, 0x1000000000FF⟩] }.fault = []) := by decide

theorem init_runs (s : State) (h : s.ReadyForInit) : ∃ t, exec .init s = .next t :=
  ⟨_, issue_alone (entryCheck_passes h.running h.idle fun h => by simp [HostOp.needsInit] at h) h.alone⟩

theorem xfer_runs (s : State) (b : Byte) (h : s.Ready) : ∃ t, exec (.xfer b) s = .next t :=
  ⟨_, show issue (.xfer b) s = _ from issue_alone (entryCheck_passes h.running h.idle fun _ => h.initDone) h.alone⟩

theorem transactW_runs (s : State) (a : Addr7) (p : Word) (h : s.Ready) :
    ∃ t, exec (.transactW (a.setWidth 8) p) s = .next t :=
  ⟨_, (exec_transactW a p s).trans (issue_alone (entryCheck_passes h.running h.idle fun _ => h.initDone) h.alone)⟩

theorem transactR_runs (s : State) (a : Addr7) (p : Word) (h : s.Ready) :
    ∃ t, exec (.transactR (a.setWidth 8) p) s = .next t :=
  ⟨_, (exec_transactR a p s).trans (issue_alone (entryCheck_passes h.running h.idle fun _ => h.initDone) h.alone)⟩

/-- The call of F-1, and the earliest and the last at which a call can land in an XFER. -/
theorem witness_OverlapStopsTheOperation :
    (∃ t, issue (.transact ⟨0x21, 0x12345678, false⟩) { ready [] with overlaps := [] } = .next t) ∧
    { ready [] with overlaps := [⟨112, 0x100000000000⟩] }.overlaps = [⟨112, 0x100000000000⟩] ∧
    decodeHcw 0x100000000000 = .instr (.xfer 0x00) ∧ hostOpOf (.xfer 0x00) = some (.xfer 0x00) ∧
    (112 = max 1 112 ∧ 112 < (HostOp.transact ⟨0x21, 0x12345678, false⟩).positions.length ∧
      (HostOp.transact ⟨0x21, 0x12345678, false⟩).positions[112 - 1]? =
        some (.transact ⟨0x21, 0x12345678, false⟩ (.byte 2 5 .s3))) ∧
    (1 = max 1 0 ∧ (HostOp.xfer 0xA5).positions[1 - 1]? = some (.xfer 0xA5 7 .s1)) ∧
    (47 = max 1 47 ∧ 47 < (HostOp.xfer 0xA5).positions.length ∧
      (HostOp.xfer 0xA5).positions[47 - 1]? = some (.xfer 0xA5 0 .s5)) :=
  ⟨⟨_, issue_alone (entryCheck_passes rfl rfl fun _ => rfl) rfl⟩, by decide +kernel⟩

theorem witness_LineReadAsksTheDevice : (ready []).dataIn = [] ∧ (ready [.high]).dataIn = [.high] := by decide

theorem witness_InitCompletes : State.reset.ReadyForInit ∧ (ready []).ReadyForInit :=
  ⟨reset_readyForInit, rfl, rfl, rfl⟩

theorem witness_XferCompletes : (ready []).Ready := ready_ready _
theorem witness_TransactWriteCompletes : (ready []).Ready := ready_ready _
theorem witness_TransactReadCompletes : (ready []).Ready := ready_ready _

theorem witness_CommandByteSent :
    selected.fault = [] ∧ selected.overlaps = [] ∧ selected.seq = .transact ⟨0x21, 0x12345678, false⟩ .selAssert ∧
    selected.cmd = .val (commandByte false 0x21) ∧ { selected with cmd := .val 0xA1 }.cmd = .val (commandByte true 0x21) := by
  decide

theorem witness_CommandByteElsewhereRefused :
    ((ready []).fault = [] ∧ ∀ t, (ready []).seq ≠ .transact t .selAssert) ∧
    (selected.fault = [] ∧ ∃ b, selected.cmd = .val b ∧ b ≠ commandByte true 0x21) :=
  ⟨⟨rfl, fun _ => by simp [ready, State.reset]⟩, rfl, 0x21, rfl, by decide⟩

theorem witness_XferReturnsTheSamples :
    (ready (wireLevels 0xA5#8)).Ready ∧ (ready (wireLevels 0xA5#8)).dataIn = wireLevels 0xA5#8 ++ [] :=
  ⟨ready_ready _, by decide⟩

theorem witness_TransactReturnsTheSamples :
    (ready (wireLevels 0x5A#8 ++ wireLevels 0x1388#32 ++ [])).Ready ∧
    (ready (wireLevels 0x5A#8 ++ wireLevels 0x1388#32 ++ [])).dataIn = wireLevels 0x5A#8 ++ wireLevels 0x1388#32 ++ [] :=
  ⟨ready_ready _, rfl⟩

theorem witness_InitIdempotent : State.reset.ReadyForInit := reset_readyForInit

/-- Every instruction answers a next state somewhere. -/
theorem witness_InstructionFrames :
    (∃ t, exec .init State.reset = .next t) ∧ (∃ t, exec (.xfer 0xA5) (ready []) = .next t) ∧
    (∃ t, exec (.transactW 0x21 5) (ready []) = .next t) ∧ (∃ t, exec (.transactR 0x21 5) (ready []) = .next t) ∧
    (∃ t, exec (.cmdWrite 0x21) selected = .next t) ∧
    (∃ t, exec (.cmdRead 0x21) { selected with cmd := .val 0xA1 } = .next t) :=
  ⟨init_runs _ reset_readyForInit, xfer_runs _ _ (ready_ready _), transactW_runs _ 0x21 5 (ready_ready _),
    transactR_runs _ 0x21 5 (ready_ready _), ⟨_, runSeq_alone _ rfl⟩, ⟨_, runSeq_alone _ rfl⟩⟩

theorem witness_NoReturnToReset : ∃ t, exec .init State.reset = .next t := init_runs _ reset_readyForInit
theorem witness_EveryReadIsFresh : ∃ t, exec (.xfer 0xA5) (ready []) = .next t := xfer_runs _ _ (ready_ready _)

theorem witness_DatapathDeadBetweenOperations :
    hostOpOf (.transactR 0x21 5) ≠ none ∧ ∃ t, exec (.transactR 0x21 5) (ready []) = .next t :=
  ⟨by decide, transactR_runs _ 0x21 5 (ready_ready _)⟩

theorem witness_XferEventCounts : ∃ t, exec (.xfer 0xA5) (ready []) = .next t := xfer_runs _ _ (ready_ready _)
theorem witness_TransactEventCounts :
    (∃ t, exec (.transactW 0x7F 5) (ready []) = .next t) ∧ ∃ t, exec (.transactR 0x00 5) (ready []) = .next t :=
  ⟨transactW_runs _ 0x7F 5 (ready_ready _), transactR_runs _ 0x00 5 (ready_ready _)⟩
theorem witness_SelectEdges :
    (∃ t, exec (.transactW 0x7F 5) (ready []) = .next t) ∧ ∃ t, exec (.transactR 0x00 5) (ready []) = .next t :=
  ⟨transactW_runs _ 0x7F 5 (ready_ready _), transactR_runs _ 0x00 5 (ready_ready _)⟩
theorem witness_SettleTimeBounds :
    (∃ t, exec .init State.reset = .next t) ∧ (∃ t, exec (.xfer 0x00) (ready []) = .next t) ∧ (∃ t, exec (.transactW 0x7F 5) (ready []) = .next t) ∧
    ∃ t, exec (.transactR 0x00 5) (ready []) = .next t :=
  ⟨init_runs _ reset_readyForInit, xfer_runs _ _ (ready_ready _), transactW_runs _ 0x7F 5 (ready_ready _), transactR_runs _ 0x00 5 (ready_ready _)⟩
theorem witness_DeviceSeesTheFrame :
    (∃ t, exec (.transactW 0x7F 5) (ready []) = .next t) ∧ ∃ t, exec (.transactR 0x00 5) (ready []) = .next t :=
  ⟨transactW_runs _ 0x7F 5 (ready_ready _), transactR_runs _ 0x00 5 (ready_ready _)⟩
/-- Two bytes, and a write and a read of other addresses from other states. -/
theorem witness_EventShapeIndependentOfData :
    ((∃ t, exec (.xfer 0x00) (ready []) = .next t) ∧ ∃ t, exec (.xfer 0xFF) booted = .next t) ∧
    (∃ t, exec (.transactW 0x7F 5) (ready []) = .next t) ∧ ∃ t, exec (.transactR 0x00 0) booted = .next t :=
  ⟨⟨xfer_runs _ _ (ready_ready _), xfer_runs _ _ booted_ready⟩, transactW_runs _ 0x7F 5 (ready_ready _),
    transactR_runs _ 0x00 0 booted_ready⟩

/-- The first and the last CLOCK event of INIT. -/
theorem witness_InitClocksWithSelectHigh :
    (nextOf (exec .init State.reset)).isSome = true ∧
    (after .init State.reset).trace.take 3 = [.call .init, .mode .select .output, .write .select .high] ∧
    (after .init State.reset).trace[3]? = some (.mode .clock .output) ∧
    (after .init State.reset).trace[4]? = some (.write .clock .high) := by decide +kernel

/-- The first read of an XFER: the events before it and it. -/
theorem witness_ReadRightAfterActiveEdge :
    (nextOf (exec (.xfer 0xA5) (ready [.high]))).isSome = true ∧
    (after (.xfer 0xA5) (ready [.high])).trace.take 5 =
      [.call (.xfer 0xA5), .write .dataOut .high, .delay .tSettle, .write .clock .low] ++ [.read .high] := by
  decide +kernel

/-- The line state INIT leaves, with the trace that says so. -/
theorem booted_matchesTrace : booted.MatchesTrace :=
  ⟨fun l => by cases l <;> rfl, fun l => by cases l <;> rfl⟩

theorem booted_inv : booted.Inv :=
  ⟨booted_matchesTrace, ⟨fun h => by simp [booted, afterInit] at h, fun _ => ⟨rfl, rfl, rfl, rfl⟩⟩⟩

/-- Initialised, with no pull on DATA_IN, and the trace that says so. -/
def configured : State :=
  { ready (wireLevels 0xA5#8) with
    trace := [.mode .select .output, .write .select .high, .mode .clock .output, .write .clock .high,
      .mode .dataOut .output, .mode .dataIn (.input .none)] }

/-- The first write of DATA_OUT in an XFER. -/
theorem witness_DataOutChangesWithClockHigh :
    configured.MatchesTrace ∧ configured.lines.clock = .val .high ∧ (∃ t, exec (.xfer 0xA5) configured = .next t) ∧
    (after (.xfer 0xA5) configured).trace =
      configured.trace ++ [.call (.xfer 0xA5)] ++ .write .dataOut .high ::
        (after (.xfer 0xA5) configured).trace.drop 8 :=
  ⟨⟨fun l => by cases l <;> rfl, fun l => by cases l <;> rfl⟩, rfl, xfer_runs _ _ ⟨rfl, rfl, rfl, rfl⟩,
    by decide +kernel⟩

/-! The whole-step rules. -/

theorem witness_ModesWrittenOnlyByInit :
    (nextOf (step (issuing State.reset 0))).map (fun t => t.modes.select) = some .output ∧
    State.reset.modes.select = .unconfigured ∧
    (nextOf (step { State.reset with seq := .init 1 })).map (fun t => t.modes.clock) = some .output := by decide +kernel

theorem witness_InitDoneNeverCleared :
    (nextOf (step (issuing (ready []) 0x1000000000A5))).isSome = true ∧
    (issuing (ready []) 0x1000000000A5).initDone = true := by decide +kernel

/-- A next state, a fault and a refusal. -/
theorem witness_TraceOnlyGrows :
    (nextOf (step (issuing (ready []) 0x1000000000A5))).isSome = true ∧
    (stoppedBy (step (issuing State.reset 0x1000000000A5))).isSome = true ∧
    (match step (issuing State.reset 0x208000000000) with
      | .refused r => r.state.isSome
      | _ => false) = true := by decide +kernel

theorem witness_FaultsNeverRemoved :
    (nextOf (step (issuing (ready []) 0x1000000000A5))).isSome = true ∧
    (stoppedBy (step (issuing stopped 0x000000000000))).isSome = true ∧
    (match step (issuing stopped 0x208000000000) with
      | .refused r => r.state.isSome
      | _ => false) = true := by decide +kernel

/-! The device's answers. -/

/-- Under LOOPBACK the reads of `XFER 0xA5` are its own bits. -/
theorem witness_LoopbackReturnsTheByte :
    (ready (wireLevels 0xA5#8)).Ready ∧ (nextOf (exec (.xfer 0xA5) (ready (wireLevels 0xA5#8)))).isSome = true ∧
    follows loopback [] (after (.xfer 0xA5) (ready (wireLevels 0xA5#8))).trace = true :=
  ⟨ready_ready _, by decide +kernel⟩

/-- A line stuck High and one stuck Low, in each of the three operations. -/
theorem witness_StuckLineReadsConstant :
    (∀ levels, (ready levels).Ready) ∧ (ready []).trace = [] ∧
    (nextOf (exec (.xfer 0x00) (ready (List.replicate 8 .high)))).isSome = true ∧
    follows (stuckAt .high) [] (after (.xfer 0x00) (ready (List.replicate 8 .high))).trace = true ∧
    (nextOf (exec (.transactW 0x21 5) (ready (List.replicate 40 .low)))).isSome = true ∧
    follows (stuckAt .low) [] (after (.transactW 0x21 5) (ready (List.replicate 40 .low))).trace = true ∧
    (nextOf (exec (.transactR 0x01 0) (ready (List.replicate 40 .high)))).isSome = true ∧
    follows (stuckAt .high) [] (after (.transactR 0x01 0) (ready (List.replicate 40 .high))).trace = true :=
  ⟨ready_ready, rfl, by decide +kernel⟩

/-- T-9: the write of 0x00001388 at 0x21 and the read of it, each read of both answered as REGSTORE answers. -/
def afterWrite : State :=
  after (.transactW 0x21 0x1388) (ready (List.replicate 40 .low ++ List.replicate 8 .low ++ wireLevels 0x1388#32))

theorem witness_WriteThenReadReturnsTheValue :
    (nextOf (exec (.transactW 0x21 0x1388)
      (ready (List.replicate 40 .low ++ List.replicate 8 .low ++ wireLevels 0x1388#32)))).isSome = true ∧
    (nextOf (exec (.transactR 0x21 0) afterWrite)).isSome = true ∧
    (after (.transactR 0x21 0) afterWrite).trace =
      afterWrite.trace ++ (after (.transactR 0x21 0) afterWrite).trace.drop 244 ∧
    follows (regStore []) afterWrite.trace ((after (.transactR 0x21 0) afterWrite).trace.drop 244) = true := by
  decide +kernel

/-! The invariant and the run. -/

theorem witness_StepKeepsInvariant : booted.Inv ∧ ∃ t, step (issuing booted 0x1000000000A5) = .next t :=
  ⟨booted_inv, xfer_runs booted 0xA5 booted_ready⟩

theorem witness_StopKeepsInvariant :
    State.reset.Inv ∧ (∃ f, step (issuing State.reset 0x1000000000A5) = .fault f) ∧
    ∃ r t, step (issuing State.reset 0x208000000000) = .refused r ∧ r.state = some t :=
  ⟨⟨⟨fun l => by cases l <;> rfl, fun l => by cases l <;> rfl⟩, ⟨fun _ => rfl, fun h => by simp [State.reset] at h⟩⟩,
    ⟨_, rfl⟩, _, _, rfl, rfl⟩

theorem witness_BetweenOperations :
    booted.Inv ∧ hostOpOf (.xfer 0xA5) ≠ none ∧ ∃ t, exec (.xfer 0xA5) booted = .next t :=
  ⟨booted_inv, by decide, xfer_runs _ _ booted_ready⟩

/-- The program P1 from reset, one from an initialised state, and the empty one. -/
theorem witness_ProgramRunsToItsEnd :
    (State.reset.fault = [] ∧ State.reset.seq = .idle ∧ State.reset.overlaps = [] ∧ State.reset.refusals = [] ∧
      allReturned State.reset.trace = true) ∧
    [0x000000000000, 0x10000000003C, 0x1000000000C3].map decodeHcw = [.init, .xfer 0x3C, .xfer 0xC3].map Decoded.instr ∧
    [Instr.init, .xfer 0x3C, .xfer 0xC3].head? = some .init ∧
    ((ready []).initDone = true ∧ [0x212100000000].map decodeHcw = [.transactR 0x21 0].map Decoded.instr) ∧
    State.reset.program.map decodeHcw = ([] : List Instr).map Decoded.instr := by decide

end Sys2Proof.Tests
end

section
/-! PROOF. One rule for everything a step keeps: a property of states that each move of BBT keeps is left by every
outcome of a step, next states and stops alike. -/

namespace Sys2Proof.Machine

/-- Every state an outcome carries: `P` of a next state and of what a refusal leaves, `F` of what a fault stops in. -/
def Leaves (P F : State → Prop) : Result → Prop
  | .next s => P s
  | .fault f => F f.state
  | .refused r => ∀ t, r.state = some t → P t

/-- `P` is kept by every move of BBT that is no fault, and `F` holds where a fault stops a state with `P`. -/
structure Kept (P F : State → Prop) : Prop where
  /-- The host's program, the second agent's calls and the refusal marks are no part of it. -/
  lists : ∀ {s}, P s → ∀ o pr rf, P { s with overlaps := o, program := pr, refusals := rf }
  raised : ∀ {s}, P s → ∀ r, F (raiseFault r s)
  stuck : ∀ {s}, P s → s.fault ≠ [] → F s
  started : ∀ {s op p ps}, P s → entryCheck op s = none → op.positions = p :: ps → P (perform p (openCall op s))
  advanced : ∀ {s p}, P s → s.seq.next = some p → P (perform p s)
  completed : ∀ {s}, P s → s.seq.next = none → P (complete s)

/-- A position that others follow is where SEQ rests after it. -/
theorem perform_seq_of_linked {p : Seq} {ps : List Seq} (h : Linked p ps) (hne : ps ≠ []) (s : State) :
    (perform p s).seq = p := by
  cases ps with
  | nil => exact absurd rfl hne
  | cons q qs => exact perform_seq_of_next h.1 s

@[simp] theorem openCall_seq (op : HostOp) (s : State) : (openCall op s).seq = s.seq := by cases op <;> rfl

@[simp] theorem openCall_fault (op : HostOp) (s : State) : (openCall op s).fault = s.fault := by cases op <;> rfl

/-- An operation that passes its entry check runs its positions (R150). -/
theorem issue_eq_runSeq {op : HostOp} {s : State} (h : entryCheck op s = none) :
    issue op s = runSeq op.positions (openCall op s) := by
  rw [issue, h]

theorem isStopped_iff {s : State} : s.isStopped = true ↔ s.fault ≠ [] := by
  simp [State.isStopped]

/-- A fault of the entry check is that of an earlier fault, or one raised now (R154). -/
theorem entryCheck_fault {op : HostOp} {s : State} {f : Fault} (h : entryCheck op s = some f) :
    (f.state = s ∧ s.fault ≠ []) ∨ ∃ r, f.state = raiseFault r s := by
  unfold entryCheck at h
  split at h
  · rename_i hs
    cases h
    exact .inl ⟨rfl, isStopped_iff.1 hs⟩
  · split at h
    · cases h; exact .inr ⟨_, rfl⟩
    · split at h <;> cases h
      exact .inr ⟨_, rfl⟩

namespace Kept

variable {P F : State → Prop} (K : Kept P F)
include K

theorem overlaps {s : State} (h : P s) (o : List Overlap) : P (s.withOverlaps o) :=
  K.lists h o s.program s.refusals

theorem entryCheck {op : HostOp} {s : State} {f : Fault} (h : P s) (hf : entryCheck op s = some f) : F f.state := by
  obtain ⟨e, hs⟩ | ⟨r, e⟩ := entryCheck_fault hf
  · exact e ▸ K.stuck h hs
  · exact e ▸ K.raised h r

theorem refuseWord {s : State} (h : P s) (why : Reject) (w : Hcw) : Leaves P F (refuseWord why w s) := by
  intro t ht
  cases ht
  exact K.lists h s.overlaps s.program _

theorem landing {s : State} {r : Result} (h : P s) (hr : landing s = some r) : Leaves P F r := by
  unfold Machine.landing at hr
  split at hr
  · rename_i w rest _
    have h' : P { s with overlaps := rest } := K.overlaps h rest
    unfold overlapOutcome at hr
    split at hr
    · split at hr
      · cases hr; exact K.refuseWord h' _ _
      · split at hr
        · obtain ⟨f, hf, rfl⟩ := Option.map_eq_some_iff.1 hr
          exact K.entryCheck h' hf
        · cases hr
    · cases hr
  · cases hr

theorem stoppedOutcome {s : State} (h : P s) (hs : s.isStopped = true) : Leaves P F (stoppedOutcome s) := by
  unfold Machine.stoppedOutcome
  split
  · rename_i r hr; exact K.landing h hr
  · exact K.stuck h (isStopped_iff.1 hs)

/-- A position performed, once it has been counted for the second agent's next call. -/
theorem perform_countdown {s : State} {p : Seq} (h : P (perform p s)) : P (perform p (countdown s)) := by
  obtain ⟨o, ho⟩ := countdown_eq s
  rw [ho, perform_withOverlaps]
  exact K.overlaps h o

/-- Positions run in their order, from the state whose SEQ is the position before them. -/
theorem runSeq {ps : List Seq} : ∀ {p : Seq} {s : State}, P s → Linked p ps → (ps ≠ [] → s.seq = p) →
    Leaves P F (runSeq ps s) := by
  induction ps with
  | nil => intro p s h _ _; exact h
  | cons q qs ih =>
    intro p s h hl hp
    obtain ⟨hq, hl'⟩ := hl
    rw [Machine.runSeq]
    split
    · rename_i r hr; exact K.landing h hr
    · exact ih (K.perform_countdown (K.advanced h (hp (by simp) ▸ hq))) hl' fun hne => perform_seq_of_linked hl' hne _

theorem issue {op : HostOp} {s : State} (h : P s) : Leaves P F (issue op s) := by
  unfold Machine.issue
  split
  · rename_i f hf; exact K.entryCheck h hf
  · rename_i he
    obtain ⟨p, ps, hps, hl⟩ := positions_linked op
    obtain ⟨-, hq, -⟩ := entryCheck_eq_none.1 he
    rw [hps, Machine.runSeq, landing_idle ((openCall_seq op s).trans hq)]
    exact K.runSeq (K.perform_countdown (K.started h he hps)) hl fun hne => perform_seq_of_linked hl hne _

theorem sendCommandByte {s : State} (h : P s) (b : Byte) : Leaves P F (sendCommandByte b s) := by
  have refused : Leaves P F (.refused (.wireByte b s)) := fun t ht => by cases ht; exact h
  unfold Machine.sendCommandByte
  split
  · exact K.stoppedOutcome h ‹_›
  · split
    · split
      · exact K.runSeq h (linked_commandByte _) fun _ => ‹_›
      · exact refused
    · exact refused

theorem transact {s : State} (h : P s) (isRead : Bool) (a : BitVec 8) (p : Word) :
    Leaves P F (transact isRead a p s) := by
  unfold Machine.transact
  split
  · exact K.issue h
  · exact K.refuseWord h _ _

theorem exec {s : State} (h : P s) (i : Instr) : Leaves P F (exec i s) := by
  cases i with
  | init => exact K.issue h
  | xfer b => exact K.issue h
  | transactW a p => exact K.transact h false a p
  | transactR a p => exact K.transact h true a p
  | cmdWrite a => exact K.sendCommandByte h _
  | cmdRead a => exact K.sendCommandByte h _

theorem advance {s : State} (h : P s) : Leaves P F (advance s) := by
  unfold Machine.advance
  split
  · exact K.stoppedOutcome h ‹_›
  · split
    · rename_i r hr; exact K.landing h hr
    · split
      · rename_i p hp; exact K.perform_countdown (K.advanced h hp)
      · rename_i hn; exact K.completed h hn

/-- The host's word is taken off its program, which is no part of it. -/
theorem fetchHost_ok {s s' : State} {i : Instr} (h : P s) (e : fetchHost s = .ok (i, s')) : P s' := by
  unfold fetchHost at e
  split at e
  · cases e
  · split at e <;> cases e
    exact K.lists h s.overlaps _ s.refusals

/-- Where the host's next word gives no instruction BBT waits, is stuck, or refuses it (R157, R158). -/
theorem fetchHost_error {s : State} {r : Result} (h : P s) (e : fetchHost s = .error r) : Leaves P F r := by
  unfold fetchHost at e
  split at e
  · cases e
    split
    · exact K.stuck h (isStopped_iff.1 ‹_›)
    · exact h
  · split at e <;> cases e
    exact K.refuseWord (K.lists h s.overlaps _ s.refusals) _ _

/-- Every outcome of a step leaves what every move keeps. -/
theorem step {s : State} (h : P s) : Leaves P F (step s) := by
  unfold Machine.step nextInstr
  cases hq : s.seq with
  | idle =>
    cases e : fetchHost s with
    | ok x => exact K.exec (K.fetchHost_ok h e) x.1
    | error r => exact K.fetchHost_error h e
  | init k => exact K.advance h
  | xfer b i st => exact K.advance h
  | transact t pos =>
    cases pos with
    | selAssert => exact K.exec h _
    | byte j i st => exact K.advance h
    | selDeassert => exact K.advance h

end Kept

end Sys2Proof.Machine
end

section
/-! PROOF. What one position does to the lines and the sending registers, and the invariant it keeps (`10_state.md` R44,
R45; `41_byte_shifter.md` R110, R115). -/

namespace Sys2Proof.Machine

/-! ### The order of positions, read backwards and forwards -/

/-- Inside a byte the next position is the slot's next step, or the first step of the next lower bit (R35). -/
theorem nextInByte_some {i i' : Fin 8} {st st' : SlotStep} (h : nextInByte i st = some (i', st')) :
    (i' = i ∧ st.next = some st') ∨ (st = .s6 ∧ st' = .s1 ∧ i ≠ 0 ∧ i' = i - 1) := by
  cases st <;> simp [nextInByte, SlotStep.next] at h ⊢ <;> tauto

/-- A byte ends with the last step of bit 0 (R35, R111). -/
theorem nextInByte_none {i : Fin 8} {st : SlotStep} : nextInByte i st = none ↔ i = 0 ∧ st = .s6 := by
  cases st <;> simp [nextInByte, SlotStep.next]

/-- A frame ends with SELECT de-asserted (R35, R127). -/
theorem framePos_next_none {pos : FramePos} (h : pos.next = none) : pos = .selDeassert := by
  cases pos with
  | selAssert => cases h
  | byte j i st =>
    simp only [FramePos.next] at h
    split at h
    · cases h
    · split at h <;> cases h
  | selDeassert => rfl

/-! ### A position of a byte shift -/

theorem shiftStep_later {i : Fin 8} {st : SlotStep} (h : ¬(i = 7 ∧ st = .s1)) (b : Byte) (s : State) :
    shiftStep b i st s = shiftBit i st s := by
  rw [shiftStep, if_neg h]

/-- The level of CLOCK before a step of a bit slot. -/
def clockBefore : SlotStep → Level
  | .s1 => .high
  | .s2 => .high
  | .s3 => .high
  | .s4 => .low
  | .s5 => .low
  | .s6 => .low

/-- Each step finds CLOCK where the step before it left it. -/
theorem clockBefore_next {st st' : SlotStep} (h : st.next = some st') : clockBefore st' = clockAfter st := by
  cases st <;> cases h <;> rfl

/-- A step of a bit slot moves CLOCK as R110 says, and nothing else of the lines' set-up. -/
theorem driven_shiftStep {s : State} {sel : Level} {i : Fin 8} {st : SlotStep} (b : Byte)
    (h : s.Driven sel (clockBefore st)) : (shiftStep b i st s).Driven sel (clockAfter st) := by
  have h' : (if i = 7 ∧ st = .s1 then loadByte b s else s).Driven sel (clockBefore st) := by
    split
    · exact ⟨h.initDone, h.modes, h.select, h.clock⟩
    · exact h
  unfold shiftStep
  generalize (if i = 7 ∧ st = .s1 then loadByte b s else s) = s' at h'
  cases st with
  | s3 => exact ⟨h'.initDone, h'.modes, h'.select, rfl⟩
  | s6 => exact ⟨h'.initDone, h'.modes, h'.select, rfl⟩
  | s1 => exact ⟨h'.initDone, h'.modes, h'.select, h'.clock⟩
  | s2 => exact ⟨h'.initDone, h'.modes, h'.select, h'.clock⟩
  | s4 => exact ⟨h'.initDone, h'.modes, h'.select, h'.clock⟩
  | s5 => exact ⟨h'.initDone, h'.modes, h'.select, h'.clock⟩

/-- The first step of a slot puts bit i of the byte on DATA_OUT: the byte just loaded, or the one TXB already holds. -/
theorem sends_firstStep {s : State} {b : Byte} {i : Fin 8} (h : i = 7 ∨ s.txb = .val b) :
    (shiftStep b i .s1 s).Sends b i := by
  by_cases hi : i = 7
  · subst hi
    exact ⟨rfl, rfl⟩
  · have ht : s.txb = .val b := h.resolve_left hi
    rw [shiftStep_later (by simp [hi])]
    refine ⟨ht, ?_⟩
    show Held.val (level (s.txbByte.getLsbD i.val)) = _
    rw [State.txbByte, ht, Held.read]

/-- The later steps of a slot leave the bit on DATA_OUT. -/
theorem sends_laterStep {s : State} {b b' : Byte} {i : Fin 8} {st : SlotStep} (hst : st ≠ .s1) (h : s.Sends b i) :
    (shiftStep b' i st s).Sends b i := by
  rw [shiftStep_later (fun hs => hst hs.2)]
  cases st with
  | s1 => exact absurd rfl hst
  | s2 => exact ⟨h.txb, h.dataOut⟩
  | s3 => exact ⟨h.txb, h.dataOut⟩
  | s4 => exact ⟨h.txb, h.dataOut⟩
  | s5 => exact ⟨h.txb, h.dataOut⟩
  | s6 => exact ⟨h.txb, h.dataOut⟩

/-- The first position of a byte shift. -/
theorem byteShift_starts {s : State} {sel : Level} (h : s.Driven sel .high) (b : Byte) :
    (shiftStep b 7 .s1 s).Driven sel .high ∧ (shiftStep b 7 .s1 s).Sends b 7 :=
  ⟨driven_shiftStep (st := .s1) b h, sends_firstStep (.inl rfl)⟩

/-- A byte shift goes on: CLOCK and DATA_OUT are at each position as its step says (R110, R115). -/
theorem byteShift_goesOn {s : State} {sel : Level} {b : Byte} {i i' : Fin 8} {st st' : SlotStep}
    (hn : nextInByte i st = some (i', st')) (hd : s.Driven sel (clockAfter st)) (hs : s.Sends b i) :
    (shiftStep b i' st' s).Driven sel (clockAfter st') ∧ (shiftStep b i' st' s).Sends b i' := by
  obtain ⟨rfl, hst⟩ | ⟨rfl, rfl, -, rfl⟩ := nextInByte_some hn
  · have hne : st' ≠ .s1 := by cases st <;> cases hst <;> decide
    exact ⟨driven_shiftStep b (clockBefore_next hst ▸ hd), sends_laterStep hne hs⟩
  · exact ⟨driven_shiftStep (st := .s1) b hd, sends_firstStep (.inr hs.txb)⟩

/-! ### What the invariant says of SEQ, position by position -/

theorem matchesSeq_idle {s : State} (h : s.seq = .idle) :
    s.MatchesSeq ↔ (s.initDone = false → s.trace = []) ∧ (s.initDone = true → s.Driven .high .high) := by
  rw [State.MatchesSeq, h]

theorem matchesSeq_init {s : State} {k : Fin 6} (h : s.seq = .init k) :
    s.MatchesSeq ↔ k ≠ 5 ∧ (s.initDone = true → s.Driven .high .high) ∧
      s.modes.select = .output ∧ (1 ≤ k → s.lines.select = .val .high) ∧
      (2 ≤ k → s.modes.clock = .output) ∧ (3 ≤ k → s.lines.clock = .val .high) ∧
      (4 ≤ k → s.modes.dataOut = .output) := by
  rw [State.MatchesSeq, h]

theorem matchesSeq_xfer {s : State} {b : Byte} {i : Fin 8} {st : SlotStep} (h : s.seq = .xfer b i st) :
    s.MatchesSeq ↔ ¬(i = 0 ∧ st = .s6) ∧ s.Driven .high (clockAfter st) ∧ s.Sends b i := by
  rw [State.MatchesSeq, h]

theorem matchesSeq_selAssert {s : State} {t : Transaction} (h : s.seq = .transact t .selAssert) :
    s.MatchesSeq ↔ s.Driven .low .high ∧ s.cmd = .val (commandByte t.isRead t.address) := by
  rw [State.MatchesSeq, h]

theorem matchesSeq_byte {s : State} {t : Transaction} {j : Fin 5} {i : Fin 8} {st : SlotStep}
    (h : s.seq = .transact t (.byte j i st)) :
    s.MatchesSeq ↔ s.Driven .low (clockAfter st) ∧ s.cmd = .val (commandByte t.isRead t.address) ∧
      s.Sends (frameByte (commandByte t.isRead t.address) t.payload j) i := by
  rw [State.MatchesSeq, h]

theorem matchesSeq_selDeassert {s : State} {t : Transaction} (h : s.seq = .transact t .selDeassert) : ¬s.MatchesSeq := by
  rw [State.MatchesSeq, h]
  exact id

theorem matchesSeq_of_driven {s : State} (hq : s.seq = .idle) (h : s.Driven .high .high) : s.MatchesSeq :=
  (matchesSeq_idle hq).2 ⟨fun hi => absurd (h.initDone.symm.trans hi) (by decide), fun _ => h⟩

/-! ### The clauses rest on few fields -/

theorem State.Driven.congr {s t : State} {sel clk : Level} (h : s.Driven sel clk) (hi : t.initDone = s.initDone)
    (hm : t.modes = s.modes) (hl : t.lines = s.lines) : t.Driven sel clk :=
  ⟨hi ▸ h.initDone, hm ▸ h.modes, hl ▸ h.select, hl ▸ h.clock⟩

theorem State.Sends.congr {s t : State} {b : Byte} {i : Fin 8} (h : s.Sends b i) (ht : t.txb = s.txb)
    (hl : t.lines = s.lines) : t.Sends b i :=
  ⟨ht ▸ h.txb, hl ▸ h.dataOut⟩

/-- What SEQ says of the rest of the state rests on seven fields only. -/
theorem State.MatchesSeq.congr {s t : State} (h : s.MatchesSeq) (hseq : t.seq = s.seq) (hi : t.initDone = s.initDone)
    (hm : t.modes = s.modes) (hl : t.lines = s.lines) (hx : t.txb = s.txb) (hc : t.cmd = s.cmd)
    (ht : t.trace = s.trace) : t.MatchesSeq := by
  cases hq : s.seq with
  | idle =>
    obtain ⟨h0, h1⟩ := (matchesSeq_idle hq).1 h
    exact (matchesSeq_idle (hseq.trans hq)).2 ⟨fun h => ht.trans (h0 (hi ▸ h)), fun h => (h1 (hi ▸ h)).congr hi hm hl⟩
  | init k =>
    obtain ⟨hk, hd, rest⟩ := (matchesSeq_init hq).1 h
    rw [matchesSeq_init (hseq.trans hq), hm, hl]
    exact ⟨hk, fun h => (hd (hi ▸ h)).congr hi hm hl, rest⟩
  | xfer b i st =>
    obtain ⟨hlast, hd, hs⟩ := (matchesSeq_xfer hq).1 h
    exact (matchesSeq_xfer (hseq.trans hq)).2 ⟨hlast, hd.congr hi hm hl, hs.congr hx hl⟩
  | transact t pos =>
    cases pos with
    | selAssert =>
      obtain ⟨hd, hcmd⟩ := (matchesSeq_selAssert hq).1 h
      exact (matchesSeq_selAssert (hseq.trans hq)).2 ⟨hd.congr hi hm hl, hc.trans hcmd⟩
    | byte j i st =>
      obtain ⟨hd, hcmd, hs⟩ := (matchesSeq_byte hq).1 h
      exact (matchesSeq_byte (hseq.trans hq)).2 ⟨hd.congr hi hm hl, hc.trans hcmd, hs.congr hx hl⟩
    | selDeassert => exact absurd h (matchesSeq_selDeassert hq)

/-! ### Every position keeps the invariant -/

/-- After an operation's last position SEQ is Idle, and the lines stay as driven (R45). -/
theorem matchesSeq_complete {s : State} (h : s.Driven .high .high) : (complete s).MatchesSeq := by
  refine matchesSeq_of_driven (complete_seq s) ?_
  unfold complete
  split
  · exact h
  all_goals exact h.congr rfl rfl rfl

/-- An INIT that runs again finds the lines as it leaves them (R98). -/
theorem driven_initStep {s : State} (h : s.Driven .high .high) (k : Fin 6) : (initStep k s).Driven .high .high := by
  fin_cases k
  · exact ⟨h.initDone, by simp [initStep, lineMode, State.setMode, h.modes, initModes], h.select, h.clock⟩
  · exact ⟨h.initDone, h.modes, rfl, h.clock⟩
  · exact ⟨h.initDone, by simp [initStep, lineMode, State.setMode, h.modes, initModes], h.select, h.clock⟩
  · exact ⟨h.initDone, h.modes, h.select, rfl⟩
  · exact ⟨h.initDone, by simp [initStep, lineMode, State.setMode, h.modes, initModes], h.select, h.clock⟩
  · exact ⟨rfl, by simp [initStep, lineMode, State.setMode, h.modes, initModes], h.select, h.clock⟩

/-- INIT's positions one after the other (R97): each adds its mode or its level to those set before it. -/
theorem matchesSeq_perform_init {s : State} {k : Fin 6} {p : Seq} (hq : s.seq = .init k) (h : s.MatchesSeq)
    (hp : (Seq.init k).next = some p) : (perform p s).MatchesSeq := by
  obtain ⟨hk, hd, hms, hls, hmc, hlc, hmo⟩ := (matchesSeq_init hq).1 h
  have driven (q : Seq) (k : Fin 6) (hi : s.initDone = true) : (initStep k { s with seq := q }).Driven .high .high :=
    driven_initStep (s := { s with seq := q }) ((hd hi).congr rfl rfl rfl) k
  have early {m n : Fin 6} {A : Prop} (h : ¬m ≤ n) : m ≤ n → A := fun h' => absurd h' h
  fin_cases k <;> cases hp
  · exact (matchesSeq_init (k := 1) rfl).2
      ⟨by decide, driven _ 1, hms, fun _ => rfl, early (by decide), early (by decide), early (by decide)⟩
  · exact (matchesSeq_init (k := 2) rfl).2
      ⟨by decide, driven _ 2, hms, fun _ => hls (by decide), fun _ => rfl, early (by decide), early (by decide)⟩
  · exact (matchesSeq_init (k := 3) rfl).2
      ⟨by decide, driven _ 3, hms, fun _ => hls (by decide), fun _ => hmc (by decide), fun _ => rfl, early (by decide)⟩
  · exact (matchesSeq_init (k := 4) rfl).2
      ⟨by decide, driven _ 4, hms, fun _ => hls (by decide), fun _ => hmc (by decide), fun _ => hlc (by decide),
        fun _ => rfl⟩
  · rw [perform_of_last rfl]
    refine matchesSeq_complete ⟨rfl, ?_, hls (by decide), hlc (by decide)⟩
    simp [act, initStep, lineMode, State.setMode, initModes, hms, hmc (by decide), hmo (by decide)]

/-- A position of XFER's byte shift, from a state that is where the position finds it. -/
theorem matchesSeq_perform_xfer {s : State} {b : Byte} {i : Fin 8} {st : SlotStep}
    (hd : (shiftStep b i st { s with seq := .xfer b i st }).Driven .high (clockAfter st))
    (hs : (shiftStep b i st { s with seq := .xfer b i st }).Sends b i) : (perform (.xfer b i st) s).MatchesSeq := by
  cases hn : (Seq.xfer b i st).next with
  | some q =>
    have hlast : ¬(i = 0 ∧ st = .s6) := fun h => by simp [Seq.next, nextInByte_none.2 h] at hn
    rw [perform_of_next hn]
    exact (matchesSeq_xfer (shiftStep_seq b i st _)).2 ⟨hlast, hd, hs⟩
  | none =>
    obtain ⟨rfl, rfl⟩ : i = 0 ∧ st = .s6 := nextInByte_none.1 (by simpa [Seq.next] using hn)
    rw [perform_of_last hn]
    exact matchesSeq_complete hd

/-- Storing the byte received is no part of what SEQ says. -/
theorem matchesSeq_storeByte {s : State} (h : s.MatchesSeq) (j : Fin 5) : (storeByte j s).MatchesSeq := by
  unfold storeByte
  split <;> exact h.congr rfl rfl rfl rfl rfl rfl rfl

/-- A position of frame byte j, from a state that is where the position finds it. -/
theorem matchesSeq_perform_byte {s : State} {t : Transaction} {j : Fin 5} {i : Fin 8} {st : SlotStep} {b : Byte}
    (hc : s.cmd = .val (commandByte t.isRead t.address))
    (hb : b = frameByte (commandByte t.isRead t.address) t.payload j)
    (hd : (shiftStep b i st { s with seq := .transact t (.byte j i st) }).Driven .low (clockAfter st))
    (hs : (shiftStep b i st { s with seq := .transact t (.byte j i st) }).Sends b i) :
    (perform (.transact t (.byte j i st)) s).MatchesSeq := by
  subst hb
  rw [perform_frameByte t j i st (c := commandByte t.isRead t.address) fun _ => by rw [State.cmdByte, hc]; rfl]
  have shifted := (matchesSeq_byte (shiftStep_seq _ i st _)).2 ⟨hd, (shiftStep_cmd _ i st _).trans hc, hs⟩
  dsimp only
  split
  · exact matchesSeq_storeByte shifted j
  · exact shifted

/-- The position after any other keeps what SEQ says (R44, R45, R110, R115, R122, R127, R133). -/
theorem matchesSeq_perform {s : State} {p : Seq} (h : s.MatchesSeq) (hp : s.seq.next = some p) :
    (perform p s).MatchesSeq := by
  cases hq : s.seq with
  | idle => rw [hq] at hp; cases hp
  | init k => exact matchesSeq_perform_init hq h (hq ▸ hp)
  | xfer b i st =>
    obtain ⟨-, hd, hs⟩ := (matchesSeq_xfer hq).1 h
    rw [hq] at hp
    obtain ⟨⟨i', st'⟩, hn, rfl⟩ := Option.map_eq_some_iff.1 hp
    obtain ⟨hd', hs'⟩ := byteShift_goesOn (s := { s with seq := .xfer b i' st' }) hn (hd.congr rfl rfl rfl)
      (hs.congr rfl rfl)
    exact matchesSeq_perform_xfer hd' hs'
  | transact t pos =>
    rw [hq] at hp
    obtain ⟨pos', hn, rfl⟩ := Option.map_eq_some_iff.1 hp
    cases pos with
    | selAssert =>
      obtain ⟨hd, hc⟩ := (matchesSeq_selAssert hq).1 h
      cases hn
      obtain ⟨hd', hs'⟩ := byteShift_starts (s := { s with seq := .transact t (.byte 0 7 .s1) }) (hd.congr rfl rfl rfl)
        (frameByte (commandByte t.isRead t.address) t.payload 0)
      exact matchesSeq_perform_byte hc rfl hd' hs'
    | byte j i st =>
      obtain ⟨hd, hc, hs⟩ := (matchesSeq_byte hq).1 h
      cases hb : nextInByte i st with
      | some q =>
        obtain ⟨i', st'⟩ := q
        simp only [FramePos.next, hb] at hn
        cases hn
        obtain ⟨hd', hs'⟩ := byteShift_goesOn (s := { s with seq := .transact t (.byte j i' st') }) hb (hd.congr rfl rfl rfl)
          (hs.congr rfl rfl)
        exact matchesSeq_perform_byte hc rfl hd' hs'
      | none =>
        obtain ⟨rfl, rfl⟩ := nextInByte_none.1 hb
        simp only [FramePos.next, hb] at hn
        split at hn <;> cases hn
        · rw [perform_of_last rfl]
          exact matchesSeq_complete ⟨hd.initDone, hd.modes, rfl, hd.clock⟩
        · obtain ⟨hd', hs'⟩ := byteShift_starts (s := { s with seq := .transact t (.byte (j + 1) 7 .s1) })
            (hd.congr rfl rfl rfl) (frameByte (commandByte t.isRead t.address) t.payload (j + 1))
          exact matchesSeq_perform_byte hc rfl hd' hs'
    | selDeassert => exact absurd h (matchesSeq_selDeassert hq)

theorem initDone_of_entryCheck {s : State} {op : HostOp} (he : entryCheck op s = none) (hop : op.needsInit = true) :
    s.initDone = true := by
  obtain ⟨-, -, hi⟩ := entryCheck_eq_none.1 he
  exact hi hop

/-- An operation other than INIT that passes its entry check starts with the lines as INIT and every operation leave
them (R45, R154). -/
theorem driven_of_entryCheck {s : State} {op : HostOp} (h : s.MatchesSeq) (he : entryCheck op s = none)
    (hop : op.needsInit = true) : s.Driven .high .high := by
  obtain ⟨-, hq, -⟩ := entryCheck_eq_none.1 he
  obtain ⟨-, driven⟩ := (matchesSeq_idle hq).1 h
  exact driven (initDone_of_entryCheck he hop)

/-- An operation's first position meets what SEQ says, where the operation passes its entry check. -/
theorem matchesSeq_start {s : State} {op : HostOp} {p : Seq} {ps : List Seq} (h : s.MatchesSeq)
    (he : entryCheck op s = none) (hp : op.positions = p :: ps) : (perform p (openCall op s)).MatchesSeq := by
  cases op with
  | init =>
    cases hp
    obtain ⟨-, hq, -⟩ := entryCheck_eq_none.1 he
    have early {m : Fin 6} {A : Prop} (h : ¬m ≤ 0) : m ≤ 0 → A := fun h' => absurd h' h
    refine (matchesSeq_init (k := 0) rfl).2 ⟨by decide, fun hi => ?_, rfl, early (by decide), early (by decide),
      early (by decide), early (by decide)⟩
    exact driven_initStep (s := { openCall .init s with seq := .init 0 })
      ((((matchesSeq_idle hq).1 h).2 hi).congr rfl rfl rfl) 0
  | xfer b =>
    cases hp
    have hd := driven_of_entryCheck h he rfl
    obtain ⟨hd', hs'⟩ := byteShift_starts (s := { openCall (.xfer b) s with seq := .xfer b 7 .s1 }) (hd.congr rfl rfl rfl) b
    exact matchesSeq_perform_xfer hd' hs'
  | transact t =>
    cases hp
    have hd := driven_of_entryCheck h he rfl
    exact (matchesSeq_selAssert rfl).2 ⟨⟨hd.initDone, hd.modes, rfl, hd.clock⟩, rfl⟩

/-- The Call event of an operation says nothing of the lines. -/
theorem matchesTrace_openCall {s : State} (h : s.MatchesTrace) (op : HostOp) : (openCall op s).MatchesTrace := by
  have called := matchesTrace_emit h (.call op) (by simp)
  cases op with
  | init => exact called
  | xfer b => exact called
  | transact t => exact called.congr rfl rfl rfl

/-- BBT rests at no operation's last position (R35). -/
theorem idle_of_matchesSeq {s : State} (h : s.MatchesSeq) (hn : s.seq.next = none) : s.seq = .idle := by
  cases hq : s.seq with
  | idle => rfl
  | init k =>
    obtain ⟨hk, -⟩ := (matchesSeq_init hq).1 h
    simp [hq, Seq.next, hk] at hn
  | xfer b i st =>
    obtain ⟨hlast, -⟩ := (matchesSeq_xfer hq).1 h
    exact absurd (nextInByte_none.1 (by simpa [hq, Seq.next] using hn)) hlast
  | transact t pos =>
    obtain rfl := framePos_next_none (by simpa [hq, Seq.next] using hn)
    exact absurd h (matchesSeq_selDeassert hq)

/-- The invariant is kept by every move of BBT and by every stop. -/
theorem inv_kept : Kept State.Inv State.Inv where
  lists h o pr rf := ⟨h.trace.congr rfl rfl rfl, h.seq.congr rfl rfl rfl rfl rfl rfl rfl⟩
  raised h r := ⟨h.trace.congr rfl rfl rfl, h.seq.congr rfl rfl rfl rfl rfl rfl rfl⟩
  stuck h _ := h
  started h he hp := ⟨matchesTrace_perform (matchesTrace_openCall h.trace _) _, matchesSeq_start h.seq he hp⟩
  advanced h hp := ⟨matchesTrace_perform h.trace _, matchesSeq_perform h.seq hp⟩
  completed {s} h hn := by
    have hq := idle_of_matchesSeq h.seq hn
    rwa [show complete s = s by simp [complete, hq]]

/-- Settles O54: the invariant is kept by every move, so by every step. -/
theorem stepKeepsInvariant : Obligations.StepKeepsInvariant := by
  intro s t h hs
  have kept := inv_kept.step h
  rwa [hs] at kept

end Sys2Proof.Machine
end

section
/-! PROOF. What every step keeps or only adds to: INIT_DONE (`10_state.md` R30), FAULT (R36) and TRACE (R37). -/

namespace Sys2Proof.Machine

/-! ### INIT_DONE and the modes

A byte shift, the byte stored and the return leave both alone. -/

@[simp] theorem shiftStep_initDone (b : Byte) (i : Fin 8) (st : SlotStep) (s : State) :
    (shiftStep b i st s).initDone = s.initDone := by
  cases st <;> simp only [shiftStep] <;> split <;> rfl

@[simp] theorem shiftStep_modes (b : Byte) (i : Fin 8) (st : SlotStep) (s : State) :
    (shiftStep b i st s).modes = s.modes := by
  cases st <;> simp only [shiftStep] <;> split <;> rfl

@[simp] theorem storeByte_initDone (j : Fin 5) (s : State) : (storeByte j s).initDone = s.initDone := by
  unfold storeByte; split <;> rfl

@[simp] theorem storeByte_modes (j : Fin 5) (s : State) : (storeByte j s).modes = s.modes := by
  unfold storeByte; split <;> rfl

@[simp] theorem frameStep_initDone (t : Transaction) (j : Fin 5) (i : Fin 8) (st : SlotStep) (s : State) :
    (frameStep t j i st s).initDone = s.initDone := by
  unfold frameStep; dsimp only; split <;> simp

@[simp] theorem frameStep_modes (t : Transaction) (j : Fin 5) (i : Fin 8) (st : SlotStep) (s : State) :
    (frameStep t j i st s).modes = s.modes := by
  unfold frameStep; dsimp only; split <;> simp

@[simp] theorem complete_initDone (s : State) : (complete s).initDone = s.initDone := by
  unfold complete; split <;> rfl

@[simp] theorem complete_modes (s : State) : (complete s).modes = s.modes := by
  unfold complete; split <;> rfl

@[simp] theorem openCall_initDone (op : HostOp) (s : State) : (openCall op s).initDone = s.initDone := by
  cases op <;> rfl

/-- Only INIT's last position writes INIT_DONE, and it sets it (R30). -/
theorem act_initDone {s : State} (h : s.initDone = true) (p : Seq) : (act p s).initDone = true := by
  cases p with
  | idle => exact h
  | init k => fin_cases k; exacts [h, h, h, h, h, rfl]
  | xfer b i st => rw [act, shiftStep_initDone, h]
  | transact t pos =>
    cases pos with
    | selAssert => exact h
    | byte j i st => rw [act, frameStep_initDone, h]
    | selDeassert => exact h

theorem perform_initDone {s : State} (h : s.initDone = true) (p : Seq) : (perform p s).initDone = true := by
  have acted := act_initDone (s := { s with seq := p }) h p
  unfold perform
  split
  · exact acted
  · exact (complete_initDone _).trans acted

theorem initDone_kept : Kept (fun u => u.initDone = true) (fun u => u.initDone = true) where
  lists h _ _ _ := h
  raised h _ := h
  stuck h _ := h
  started h _ _ := perform_initDone ((openCall_initDone _ _).trans h) _
  advanced h _ := perform_initDone h _
  completed h _ := (complete_initDone _).trans h

/-- Settles O34: every move keeps INIT_DONE set. -/
theorem initDoneNeverCleared : Obligations.InitDoneNeverCleared := by
  intro s t hs h
  have kept := initDone_kept.step h
  rwa [hs] at kept

/-! ### TRACE -/

/-- A step of a bit slot appends its one event (R110). -/
theorem shiftStep_trace (b : Byte) (i : Fin 8) (st : SlotStep) (s : State) :
    s.trace <+: (shiftStep b i st s).trace := by
  have appends : ∀ s' : State, s.trace = s'.trace → s.trace <+: (shiftBit i st s').trace := by
    intro s' h
    rw [h]
    cases st <;> exact List.prefix_append _ _
  unfold shiftStep
  split <;> exact appends _ rfl

theorem storeByte_trace (j : Fin 5) (s : State) : (storeByte j s).trace = s.trace := by
  unfold storeByte; split <;> rfl

/-- A position appends to TRACE, its return included (R37). -/
theorem act_trace (p : Seq) (s : State) : s.trace <+: (act p s).trace := by
  cases p with
  | idle => exact List.prefix_rfl
  | init k => fin_cases k <;> exact List.prefix_append _ _
  | xfer b i st => exact shiftStep_trace b i st s
  | transact t pos =>
    cases pos with
    | selAssert => exact List.prefix_append _ _
    | byte j i st =>
      rw [act, frameStep]
      split
      · rw [storeByte_trace]; exact shiftStep_trace _ i st s
      · exact shiftStep_trace _ i st s
    | selDeassert => exact List.prefix_append _ _

theorem complete_trace (s : State) : s.trace <+: (complete s).trace := by
  unfold complete
  split
  · exact List.prefix_rfl
  all_goals exact List.prefix_append _ _

theorem perform_trace (p : Seq) (s : State) : s.trace <+: (perform p s).trace := by
  have acted : s.trace <+: (act p { s with seq := p }).trace := act_trace p { s with seq := p }
  unfold perform
  split
  · exact acted
  · exact acted.trans (complete_trace _)

theorem openCall_trace (op : HostOp) (s : State) : s.trace <+: (openCall op s).trace := by
  cases op <;> exact List.prefix_append _ _

theorem trace_kept (tr : List Event) : Kept (fun u => tr <+: u.trace) (fun u => tr <+: u.trace) where
  lists h _ _ _ := h
  raised h _ := h
  stuck h _ := h
  started h _ _ := (h.trans (openCall_trace _ _)).trans (perform_trace _ _)
  advanced h _ := h.trans (perform_trace _ _)
  completed h _ := h.trans (complete_trace _)

/-- Settles O35: every move appends, and a stop carries a state that moves led to. -/
theorem traceOnlyGrows : Obligations.TraceOnlyGrows := by
  intro s t
  have kept := (trace_kept s.trace).step (s := s) List.prefix_rfl
  refine ⟨fun h => ?_, fun f h => ?_, fun r h hr => ?_⟩ <;> rw [h] at kept
  · exact kept
  · exact kept
  · exact kept t hr

/-! ### FAULT -/

/-- A raised reason is there, and so is every earlier one (R36). -/
theorem fault_kept (fs : List FaultReason) :
    Kept (fun u => u.fault = fs) (fun u => fs ⊆ u.fault ∧ u.fault ≠ []) where
  lists h _ _ _ := h
  raised {s} h r := by
    have added r' := mem_raiseFault_fault r r' s
    exact ⟨fun r' hr' => (added r').2 (.inl (h ▸ hr')), List.ne_nil_of_mem ((added r).2 (.inr rfl))⟩
  stuck h hs := ⟨h ▸ List.Subset.refl _, hs⟩
  started h _ _ := (perform_fault _ _).trans ((openCall_fault _ _).trans h)
  advanced h _ := (perform_fault _ _).trans h
  completed h _ := (complete_fault _).trans h

/-- Settles O36: no move writes FAULT, and only `raise` does, which keeps every reason. -/
theorem faultsNeverRemoved : Obligations.FaultsNeverRemoved := by
  intro s
  have kept := (fault_kept s.fault).step (s := s) rfl
  refine ⟨fun t h => ?_, fun f h => ?_, fun r t h hr => ?_⟩ <;> rw [h] at kept
  · exact kept
  · exact kept
  · exact kept t hr

/-- Settles O17: what `raise` adds, and that it writes FAULT only. -/
theorem raiseAddsItsReason : Obligations.RaiseAddsItsReason := by
  intro r s
  have added r' := mem_raiseFault_fault r r' s
  exact ⟨(added r).2 (.inr rfl), fun r' h => (added r').2 (.inl h), fun r' h => ((added r').1 h).symm, rfl⟩

end Sys2Proof.Machine
end

section
/-! PROOF. The order of an operation's positions (`10_state.md` R35), and that an operation run whole is its sequencer
steps (R22). -/

namespace Sys2Proof.Machine

/-! ### How far an operation has come -/

/-- The steps of a bit slot, counted. -/
def SlotStep.rank : SlotStep → Nat
  | .s1 => 0
  | .s2 => 1
  | .s3 => 2
  | .s4 => 3
  | .s5 => 4
  | .s6 => 5

/-- How many positions of its operation come before a position. -/
def Seq.rank : Seq → Nat
  | .idle => 0
  | .init k => k.val
  | .xfer _ i st => 6 * (7 - i.val) + st.rank
  | .transact _ .selAssert => 0
  | .transact _ (.byte j i st) => 1 + 48 * j.val + (6 * (7 - i.val) + st.rank)
  | .transact _ .selDeassert => 241

/-- Inside a byte each position is one further. -/
theorem rank_nextInByte {i i' : Fin 8} {st st' : SlotStep} (h : nextInByte i st = some (i', st')) :
    6 * (7 - i'.val) + st'.rank = 6 * (7 - i.val) + st.rank + 1 := by
  obtain ⟨rfl, hst⟩ | ⟨rfl, rfl, hi, rfl⟩ := nextInByte_some h
  · have : st'.rank = st.rank + 1 := by cases st <;> cases hst <;> rfl
    omega
  · have : (i - 1).val = i.val - 1 := by revert i; decide
    have : i.val ≠ 0 := fun h0 => hi (Fin.ext h0)
    simp only [SlotStep.rank]
    omega

/-- Each position is one further than the one before it (R35). -/
theorem rank_next {p q : Seq} (h : p.next = some q) : q.rank = p.rank + 1 := by
  cases p with
  | idle => cases h
  | init k => fin_cases k <;> cases h <;> rfl
  | xfer b i st =>
    obtain ⟨⟨i', st'⟩, hn, rfl⟩ := Option.map_eq_some_iff.1 h
    exact rank_nextInByte hn
  | transact t pos =>
    obtain ⟨pos', hn, rfl⟩ := Option.map_eq_some_iff.1 h
    cases pos with
    | selAssert => cases hn; rfl
    | byte j i st =>
      cases hb : nextInByte i st with
      | some q =>
        simp only [FramePos.next, hb] at hn
        cases hn
        simp only [Seq.rank, rank_nextInByte hb]
        omega
      | none =>
        obtain ⟨rfl, rfl⟩ := nextInByte_none.1 hb
        fin_cases j <;> cases hn <;> rfl
    | selDeassert => cases hn

/-- Positions that follow one another are counted up one by one, so none repeats. -/
theorem rank_linked {ps : List Seq} : ∀ {p : Seq}, Linked p ps →
    (p :: ps).map Seq.rank = List.range' p.rank (ps.length + 1) := by
  induction ps with
  | nil => intro p _; rfl
  | cons q qs ih =>
    intro p ⟨hq, hl⟩
    rw [List.map_cons, ih hl, rank_next hq, List.length_cons, List.range'_succ (n := qs.length + 1)]

theorem nodup_of_linked {p : Seq} {ps : List Seq} (h : Linked p ps) : (p :: ps).Nodup :=
  List.Nodup.of_map Seq.rank (rank_linked h ▸ List.nodup_range')

/-- In a list whose positions follow one another to a last one, each entry is the one after the entry before it. -/
theorem linked_getElem? {ps : List Seq} : ∀ {p : Seq}, Linked p ps →
    (∀ q, (p :: ps).getLast? = some q → q.next = none) →
    ∀ k, ((p :: ps)[k]?).bind Seq.next = (p :: ps)[k + 1]? := by
  induction ps with
  | nil =>
    intro p _ hlast k
    cases k with
    | zero => exact hlast p rfl
    | succ k => rfl
  | cons q qs ih =>
    intro p ⟨hq, hl⟩ hlast k
    cases k with
    | zero => exact hq
    | succ k => exact ih hl (fun r hr => hlast r (by rwa [List.getLast?_cons_cons])) k

/-- An operation's last position has none after it (R35). -/
theorem next_of_last {op : HostOp} {p : Seq} (h : op.positions.getLast? = some p) : p.next = none := by
  cases op with
  | init => cases h; rfl
  | xfer b => cases h; rfl
  | transact t =>
    rw [HostOp.positions, ← List.cons_append, List.getLast?_append] at h
    cases h
    rfl

theorem idle_not_mem_positions (op : HostOp) : Seq.idle ∉ op.positions := by
  cases op <;> simp [HostOp.positions, frameBytePositions, bytePositions]

theorem bytePositions_length (mk : Fin 8 → SlotStep → Seq) : (bytePositions mk).length = 48 := rfl

/-- SELECT asserted, five byte shifts, SELECT de-asserted (R35). -/
theorem positions_length_transact (t : Transaction) : (HostOp.transact t).positions.length = 242 := by
  simp only [HostOp.positions, List.length_cons, List.length_append, List.length_nil, List.flatMap_cons,
    List.flatMap_nil, frameBytePositions, bytePositions_length]

/-- Settles O12: the positions follow one another to a last one, and are counted up one by one. -/
theorem positionsInFixedOrder : Obligations.PositionsInFixedOrder := by
  intro op
  obtain ⟨p, ps, hps, hl⟩ := positions_linked op
  refine ⟨by cases op <;> rfl, ?_, ?_, idle_not_mem_positions op, ?_,
    fun p s h => perform_seq_of_last (next_of_last h) s, fun p q s _ h => perform_seq_of_next h s⟩
  · have last := fun q => next_of_last (op := op) (p := q)
    rw [hps] at last ⊢
    exact linked_getElem? hl last
  · rw [hps]
    exact nodup_of_linked hl
  · cases op with
    | init => rfl
    | xfer b => exact bytePositions_length _
    | transact t => exact positions_length_transact t

/-! ### Sequencer steps -/

/-- A step of an operation in progress, no fault, and its next position. -/
theorem advance_running {s : State} {p : Seq} (hf : s.fault = []) (hp : s.seq.next = some p) :
    advance s = match landing s with
      | some r => r
      | none => .next (perform p (countdown s)) := by
  simp only [advance, State.isStopped, hf, hp]
  rfl

/-- Settles O11: at every position but SelAssert a step is `advance`, which performs the next position. -/
theorem busyStepPerformsNextPosition : Obligations.BusyStepPerformsNextPosition := by
  intro s p hf ho hp hsel
  have moved : advance s = .next (perform p s) := by
    rw [advance_running hf hp, landing_alone ho, countdown_alone ho]
  have fetched : nextInstr s = .error (advance s) := by
    unfold nextInstr
    split
    · rename_i hq; rw [hq] at hp; cases hp
    · rename_i t hq; exact absurd hq (hsel t)
    · rfl
  rw [step, fetched]
  exact moved

/-- Positions run in their order are as many sequencer steps, from the state whose SEQ is the position before them. -/
theorem runSeq_eq_advanceN {ps : List Seq} : ∀ {p : Seq} {s : State}, s.fault = [] → Linked p ps →
    (ps ≠ [] → s.seq = p) → runSeq ps s = advanceN ps.length s := by
  induction ps with
  | nil => intro p s _ _ _; rfl
  | cons q qs ih =>
    intro p s hf ⟨hq, hl⟩ hp
    have hq' : s.seq.next = some q := hp (by simp) ▸ hq
    have busy : s.isBusy = true := by
      cases hs : s.seq <;> simp [State.isBusy, hs]
      rw [hs] at hq'; cases hq'
    rw [List.length_cons, advanceN, if_pos busy, advance_running hf hq', runSeq]
    cases hr : landing s with
    | none =>
      exact ih (by simp [hf]) hl fun hne => perform_seq_of_linked hl hne _
    | some r =>
      cases r with
      | next t => exact absurd hr landing_ne_next
      | fault f => rfl
      | refused r => rfl

/-- Settles O13: the first position is performed with the issue, and the rest are sequencer steps. -/
theorem operationIsItsSteps : Obligations.OperationIsItsSteps := by
  intro op s he
  obtain ⟨p, ps, hps, hl⟩ := positions_linked op
  obtain ⟨hf, hq, -⟩ := entryCheck_eq_none.1 he
  refine ⟨p, ps, hps, ?_⟩
  rw [issue_eq_runSeq he, hps, runSeq, landing_idle ((openCall_seq op s).trans hq)]
  exact runSeq_eq_advanceN (by simp [hf]) hl fun hne => perform_seq_of_linked hl hne _

end Sys2Proof.Machine
end

section
/-! PROOF. What a stopped BBT answers (`60_exceptions.md` R152), what each instruction leaves as it was, and what a step
that answers a next state has done. -/

namespace Sys2Proof.Machine

/-! ### Stopped -/

/-- An instruction that issues a host operation is the issue of it. -/
theorem exec_of_hostOp {i : Instr} {op : HostOp} (h : hostOpOf i = some op) (s : State) : exec i s = issue op s := by
  cases i with
  | init => cases h; rfl
  | xfer b => cases h; rfl
  | transactW a p =>
    obtain ⟨a', ha, rfl⟩ := Option.map_eq_some_iff.1 h
    rw [narrowAddress_eq_some.1 ha]
    exact exec_transactW a' p s
  | transactR a p =>
    obtain ⟨a', ha, rfl⟩ := Option.map_eq_some_iff.1 h
    rw [narrowAddress_eq_some.1 ha]
    exact exec_transactR a' p s
  | cmdWrite a => cases h
  | cmdRead a => cases h

/-- A host command word that decodes spells a host operation (R76). -/
theorem hostOpOf_decodeHcw {w : Hcw} {i : Instr} (h : decodeHcw w = .instr i) : ∃ op, hostOpOf i = some op := by
  obtain rfl | ⟨b, rfl⟩ | ⟨t, rfl⟩ := decodeHcw_instr h
  · exact ⟨_, rfl⟩
  · exact ⟨_, rfl⟩
  · exact ⟨_, hostOpOf_transactInstr t⟩

/-- A stopped BBT issues nothing (R152, R154). -/
theorem issue_stopped {s : State} (h : s.fault ≠ []) (op : HostOp) : issue op s = .fault (.stuck s) := by
  rw [issue, entryCheck_stopped op h]

theorem sendCommandByte_stopped {s : State} (h : s.fault ≠ []) (b : Byte) : sendCommandByte b s = stoppedOutcome s := by
  rw [sendCommandByte, if_pos (isStopped_iff.2 h)]

theorem advance_stopped {s : State} (h : s.fault ≠ []) : advance s = stoppedOutcome s := by
  rw [advance, if_pos (isStopped_iff.2 h)]

/-- A stopped BBT with an operation in progress answers every step with its stop. -/
theorem step_stopped_busy {s : State} (h : s.fault ≠ []) (hq : s.seq ≠ .idle) : step s = stoppedOutcome s := by
  unfold step nextInstr
  cases hs : s.seq with
  | idle => exact absurd hs hq
  | init k => exact advance_stopped h
  | xfer b i st => exact advance_stopped h
  | transact t pos =>
    cases pos with
    | selAssert =>
      obtain ⟨isRead, a, hd, -⟩ := decodeWire_eq s.cmdByte
      show exec (decodeWire s.cmdByte) s = _
      rw [hd, exec_wireInstr, sendCommandByte_stopped h]
    | byte j i st => exact advance_stopped h
    | selDeassert => exact advance_stopped h

/-- A stopped BBT with nothing left to issue is stuck. -/
theorem step_stopped_done {s : State} (h : s.fault ≠ []) (hq : s.seq = .idle) (hp : s.program = []) :
    step s = .fault (.stuck s) := by
  simp [step, nextInstr, hq, fetchHost, hp, isStopped_iff.2 h]

/-- A step with SEQ Idle runs the word the host issues. -/
theorem step_issues {s : State} {w : Hcw} {rest : List Hcw} {i : Instr} (hq : s.seq = .idle)
    (hp : s.program = w :: rest) (hd : decodeHcw w = .instr i) : step s = exec i { s with program := rest } := by
  simp [step, nextInstr, hq, fetchHost, hp, hd]

/-- Settles O15: each way into a step meets the check for an earlier fault. -/
theorem stoppedTakesNoStep : Obligations.StoppedTakesNoStep := by
  intro s hf
  refine ⟨fun hdue => ⟨fun a => ?_, fun h => ?_⟩, fun w rest i hq hp hd => ?_⟩
  · have stuck := stoppedOutcome_not_due hdue
    exact ⟨(sendCommandByte_stopped hf _).trans stuck, (sendCommandByte_stopped hf _).trans stuck⟩
  · by_cases hq : s.seq = .idle
    · exact step_stopped_done hf hq (h.resolve_left fun hn => hn hq)
    · exact (step_stopped_busy hf hq).trans (stoppedOutcome_not_due hdue)
  · obtain ⟨op, hop⟩ := hostOpOf_decodeHcw hd
    rw [step_issues hq hp hd, exec_of_hostOp hop]
    exact issue_stopped (s := { s with program := rest }) hf op

/-! ### Each instruction that answers a next state -/

theorem exec_init_next {s t : State} (h : exec .init s = .next t) : ∃ o, t = (afterInit s).withOverlaps o := by
  obtain ⟨-, o, rfl⟩ := issue_next h
  exact ⟨o, by rw [init_performed]⟩

theorem exec_xfer_next {b : Byte} {s t : State} (h : exec (.xfer b) s = .next t) :
    ∃ r o, t = (afterXfer b r s).withOverlaps o := by
  obtain ⟨-, o, rfl⟩ := issue_next h
  obtain ⟨r, e, -⟩ := xfer_performed b s
  exact ⟨r, o, by rw [e]⟩

theorem transact_leaves {isRead : Bool} {a : BitVec 8} {p : Word} {s t : State} (h : transact isRead a p s = .next t) :
    ∃ tr stat result o, t = (afterTransact tr stat result s).withOverlaps o := by
  obtain ⟨a, -, h'⟩ := transact_next h
  obtain ⟨-, o, rfl⟩ := issue_next h'
  obtain ⟨stat, result, e, -⟩ := transact_performed ⟨a, p, isRead⟩ s
  exact ⟨_, stat, result, o, by rw [e]⟩

theorem sendCommandByte_leaves {b : Byte} {s t : State} (h : sendCommandByte b s = .next t) :
    ∃ tr stat o, t = (afterCommandByte tr b stat s).withOverlaps o := by
  obtain ⟨-, hb, tr, o, -, rfl⟩ := sendCommandByte_next h
  obtain ⟨stat, e, -⟩ := commandByte_performed tr hb
  exact ⟨tr, stat, o, by rw [e]⟩

/-- Settles O23: INIT's positions performed, where its entry check passes. -/
theorem initCompletes : Obligations.InitCompletes := by
  intro s h
  have passes : entryCheck .init s = none := entryCheck_passes h.running h.idle (by simp [HostOp.needsInit])
  show issue .init s = _
  rw [issue_alone passes h.alone, init_performed]
  rfl

/-- Settles O32: what the state after each instruction has from the state before it. -/
theorem instructionFrames : Obligations.InstructionFrames := by
  intro s t
  refine ⟨fun h => ?_, fun b h => ?_, fun a p h => ?_, fun a p h => ?_, fun a h => ?_, fun i h => ?_⟩
  · obtain ⟨o, rfl⟩ := exec_init_next h
    exact ⟨rfl, rfl, rfl, rfl, rfl, rfl, rfl, rfl⟩
  · obtain ⟨r, o, rfl⟩ := exec_xfer_next h
    exact ⟨rfl, rfl, rfl, rfl, rfl, rfl⟩
  · obtain ⟨tr, stat, result, o, rfl⟩ := transact_leaves h
    exact ⟨rfl, rfl⟩
  · obtain ⟨tr, stat, result, o, rfl⟩ := transact_leaves h
    exact ⟨rfl, rfl⟩
  · have sent : ∃ isRead, sendCommandByte (commandByte isRead a) s = .next t := h.elim (⟨false, ·⟩) (⟨true, ·⟩)
    obtain ⟨isRead, h'⟩ := sent
    obtain ⟨tr, stat, o, rfl⟩ := sendCommandByte_leaves h'
    exact ⟨rfl, rfl, rfl, rfl, rfl⟩
  · obtain ⟨rfl, -, o, rfl⟩ | ⟨b, r, o, rfl, -, rfl⟩ | ⟨tr, stat, result, o, rfl, -, rfl⟩ |
      ⟨isRead, a, tr, stat, o, rfl, -, -, -, rfl⟩ := exec_next h
    all_goals exact ⟨rfl, rfl, rfl⟩

/-! ### The events of an instruction -/

/-- The events appended, and as many levels drawn as they hold reads. -/
theorem fresh_of_readCount {s t : State} {es : List Event} {n : Nat} (hn : readCount es = n)
    (ht : t.trace = s.trace ++ es) (hd : t.draws = s.draws + n) (hi : t.dataIn = s.dataIn.drop n) :
    ∃ es, t.trace = s.trace ++ es ∧ t.draws = s.draws + readCount es ∧ t.dataIn = s.dataIn.drop (readCount es) :=
  ⟨es, ht, hn ▸ hd, hn ▸ hi⟩

theorem readCount_call (op : HostOp) : readCount [.call op] = 0 := rfl

theorem readCount_ret (n : OpName) (v : ReturnValue) : readCount [.ret n v] = 0 := rfl

theorem readCount_initEvents : readCount initEvents = 0 := rfl

/-- Settles O38: 0, 8, 40 or 8 reads, and as many levels drawn. -/
theorem everyReadIsFresh : Obligations.EveryReadIsFresh := by
  intro i s t h
  obtain ⟨-, -, o, rfl⟩ | ⟨b, r, o, -, -, rfl⟩ | ⟨tr, stat, result, o, -, -, rfl⟩ |
    ⟨isRead, a, tr, stat, o, -, -, -, -, rfl⟩ := exec_next h
  · refine fresh_of_readCount (es := [Event.call .init] ++ initEvents ++ [Event.ret .init .none]) (n := 0) ?_ ?_ rfl rfl
    · simp only [readCount_append, readCount_call, readCount_ret, readCount_initEvents]
    · simp [afterInit, State.withOverlaps]
  · refine fresh_of_readCount (es := [Event.call (.xfer b)] ++ byteEvents b r ++ [Event.ret .xfer (.byte r)]) (n := 8) ?_ ?_ rfl rfl
    · simp only [readCount_append, readCount_call, readCount_ret, readCount_byteEvents]
    · simp [afterXfer, State.withOverlaps]
  · refine fresh_of_readCount (es := [Event.call (.transact tr)] ++
      frameEvents (commandByte tr.isRead tr.address) tr.payload stat result ++ [Event.ret tr.name (.word result)])
      (n := 40) ?_ ?_ rfl rfl
    · simp only [readCount_append, readCount_call, readCount_ret, readCount_frameEvents]
    · simp [afterTransact, State.withOverlaps]
  · exact fresh_of_readCount (readCount_byteEvents _ _) rfl rfl rfl

/-! ### A host operation that answers a next state -/

/-- It has returned, and INIT has been done (R45). -/
theorem hostOp_returned {i : Instr} {s t : State} (hi : hostOpOf i ≠ none) (h : exec i s = .next t) :
    t.seq = .idle ∧ t.initDone = true := by
  obtain ⟨-, -, o, rfl⟩ | ⟨b, r, o, -, he, rfl⟩ | ⟨tr, stat, result, o, -, he, rfl⟩ |
    ⟨isRead, a, tr, stat, o, rfl, -⟩ := exec_next h
  · exact ⟨rfl, rfl⟩
  · exact ⟨rfl, show s.initDone = true from initDone_of_entryCheck he rfl⟩
  · exact ⟨rfl, show s.initDone = true from initDone_of_entryCheck he rfl⟩
  · exact absurd (by cases isRead <;> rfl) hi

/-- Settles O56: the invariant at SEQ Idle with INIT done. -/
theorem betweenOperations : Obligations.BetweenOperations := by
  intro i s t hs hi h
  obtain ⟨hq, hdone⟩ := hostOp_returned hi h
  have inv := inv_kept.exec hs i
  rw [h] at inv
  have driven := ((matchesSeq_idle hq).1 inv.seq).2 hdone
  exact ⟨hq, driven.clock, driven.select, inv.trace.lines .dataOut⟩

/-! ### The modes -/

/-- Only INIT's positions write a mode (R26). -/
theorem act_modes {p : Seq} (hp : ∀ k, p ≠ .init k) (s : State) : (act p s).modes = s.modes := by
  cases p with
  | idle => rfl
  | init k => exact absurd rfl (hp k)
  | xfer b i st => exact shiftStep_modes b i st s
  | transact t pos =>
    cases pos with
    | selAssert => rfl
    | byte j i st => exact frameStep_modes t j i st s
    | selDeassert => rfl

theorem perform_modes {p : Seq} (hp : ∀ k, p ≠ .init k) (s : State) : (perform p s).modes = s.modes := by
  have acted : (act p { s with seq := p }).modes = s.modes := act_modes hp _
  unfold perform
  split
  · exact acted
  · exact (complete_modes _).trans acted

/-- Everything a step that answers a next state can have been: the wait for the host, the host's next word, the command
byte, or the operation in progress going on. -/
theorem step_next {s t : State} (h : step s = .next t) :
    (s.seq = .idle ∧ s.program = [] ∧ t = s) ∨
    (∃ w rest i, s.seq = .idle ∧ s.program = w :: rest ∧ decodeHcw w = .instr i ∧
      exec i { s with program := rest } = .next t) ∨
    (∃ tr, s.seq = .transact tr .selAssert ∧ sendCommandByte s.cmdByte s = .next t) ∨
    (s.seq ≠ .idle ∧ advance s = .next t) := by
  obtain ⟨q, hq⟩ : ∃ q, s.seq = q := ⟨_, rfl⟩
  cases q with
  | idle =>
    cases hp : s.program with
    | nil =>
      simp only [step, nextInstr, hq, fetchHost, hp] at h
      split at h <;> cases h
      exact .inl ⟨hq, rfl, rfl⟩
    | cons w rest =>
      cases hd : decodeHcw w with
      | instr i => exact .inr (.inl ⟨w, rest, i, hq, rfl, hd, (step_issues hq hp hd).symm.trans h⟩)
      | reject why =>
        simp only [step, nextInstr, hq, fetchHost, hp, hd] at h
        cases h
  | init k =>
    simp only [step, nextInstr, hq] at h
    exact .inr (.inr (.inr ⟨by simp [hq], h⟩))
  | xfer b i st =>
    simp only [step, nextInstr, hq] at h
    exact .inr (.inr (.inr ⟨by simp [hq], h⟩))
  | transact tr pos =>
    cases pos with
    | selAssert =>
      obtain ⟨isRead, a, hd, hb⟩ := decodeWire_eq s.cmdByte
      simp only [step, nextInstr, hq, hd, exec_wireInstr, hb] at h
      exact .inr (.inr (.inl ⟨tr, hq, h⟩))
    | byte j i st =>
      simp only [step, nextInstr, hq] at h
      exact .inr (.inr (.inr ⟨by simp [hq], h⟩))
    | selDeassert =>
      simp only [step, nextInstr, hq] at h
      exact .inr (.inr (.inr ⟨by simp [hq], h⟩))

/-- A sequencer step that answers a next state performed the next position, or was the return left (R22). -/
theorem advance_next {s t : State} (h : advance s = .next t) :
    (∃ p o, s.seq.next = some p ∧ t = (perform p s).withOverlaps o) ∨ (s.seq.next = none ∧ t = complete s) := by
  unfold advance at h
  split at h
  · exact absurd h stoppedOutcome_ne_next
  · split at h
    · rename_i r hr; exact absurd (h ▸ hr) landing_ne_next
    · split at h
      · rename_i p hp
        cases h
        obtain ⟨o, ho⟩ := countdown_eq s
        exact .inl ⟨p, o, hp, by rw [ho, perform_withOverlaps]⟩
      · cases h
        exact .inr ⟨‹_›, rfl⟩

/-- A position of INIT follows one of INIT. -/
theorem seq_init_of_next {q : Seq} {k : Fin 6} (h : q.next = some (.init k)) : ∃ k', q = .init k' := by
  cases q with
  | idle => cases h
  | init k' => exact ⟨k', rfl⟩
  | xfer b i st => simp [Seq.next] at h
  | transact t pos => simp [Seq.next] at h

/-- A host operation other than INIT leaves the modes as they were, and so does the command byte. -/
theorem exec_modes {i : Instr} {s t : State} (hi : i ≠ .init) (h : exec i s = .next t) : t.modes = s.modes := by
  obtain ⟨hinit, -⟩ | ⟨b, r, o, -, -, rfl⟩ | ⟨tr, stat, result, o, -, -, rfl⟩ |
    ⟨isRead, a, tr, stat, o, -, -, -, -, rfl⟩ := exec_next h
  · exact absurd hinit hi
  all_goals rfl

/-- Settles O33: of all a step can be, only INIT's own run writes a mode. -/
theorem modesWrittenOnlyByInit : Obligations.ModesWrittenOnlyByInit := by
  intro s t h hm
  obtain ⟨-, -, rfl⟩ | ⟨w, rest, i, hq, hp, hd, hx⟩ | ⟨tr, -, hx⟩ | ⟨-, hx⟩ := step_next h
  · exact absurd rfl hm
  · by_cases hi : i = .init
    · exact .inr ⟨hq, w, rest, hp, hi ▸ hd⟩
    · exact absurd (exec_modes hi hx) hm
  · obtain ⟨tr, stat, o, rfl⟩ := sendCommandByte_leaves hx
    exact absurd rfl hm
  · obtain ⟨p, o, hp, rfl⟩ | ⟨-, rfl⟩ := advance_next hx
    · by_cases hk : ∃ k, p = .init k
      · obtain ⟨k, rfl⟩ := hk
        exact .inl (seq_init_of_next hp)
      · exact absurd (perform_modes (fun k hk' => hk ⟨k, hk'⟩) s) hm
    · exact absurd (complete_modes s) hm

/-! ### Reset -/

/-- Settles O52, field by field. -/
theorem resetState : Obligations.ResetState := by
  refine ⟨fun l => ?_, fun l => ?_, rfl, rfl, rfl, rfl, rfl, rfl, rfl, rfl, rfl⟩
  · cases l <;> rfl
  · cases l <;> rfl

/-- Settles O53: the empty trace says what reset holds, and INIT has not been done. -/
theorem invariantAtReset : Obligations.InvariantAtReset := by
  obtain ⟨modes, lines, -⟩ := resetState
  exact ⟨⟨lines, modes⟩, (matchesSeq_idle rfl).2 ⟨fun _ => rfl, fun h => absurd h (by decide)⟩⟩

end Sys2Proof.Machine
end

section
/-! PROOF. The datapath registers are dead between operations (`10_state.md` R33): a byte shift reads only the registers
it has loaded itself, so two states that differ in the registers alone run an operation alike. -/

namespace Sys2Proof.Machine

/-! ### A second agent's call does not see the registers -/

/-- A call lands exactly where it is due and an operation is in progress (R156, R157). -/
theorem landing_eq_none {s : State} :
    landing s = none ↔ s.seq = .idle ∨ ∀ w rest, s.overlaps ≠ { after := 0, word := w } :: rest := by
  refine ⟨fun h => or_iff_not_imp_left.2 fun hq w rest ho => ?_, landing_not_due⟩
  rw [landing_due hq ho, overlapOutcome] at h
  cases hd : decodeHcw w with
  | reject why => simp [hd] at h
  | instr i =>
    obtain ⟨op, hop⟩ := hostOpOf_decodeHcw hd
    simp only [hd, hop, Option.map_eq_none_iff] at h
    obtain ⟨-, hidle, -⟩ := entryCheck_eq_none.1 h
    exact hq hidle

/-- Where SEQ rests after a position is the position's own matter. -/
theorem perform_seq_congr (p : Seq) (s s' : State) : (perform p s').seq = (perform p s).seq := by
  cases h : p.next with
  | some q => rw [perform_seq_of_next h, perform_seq_of_next h]
  | none => rw [perform_seq_of_last h, perform_seq_of_last h]

theorem countdown_overlaps_congr {s s' : State} (h : s'.overlaps = s.overlaps) :
    (countdown s').overlaps = (countdown s).overlaps := by
  cases ho : s.overlaps <;> simp [countdown, ho, h]

/-- Whether positions run to their end rests on the calls still to come and on SEQ. -/
theorem runSeq_congr {ps : List Seq} : ∀ {s s' t : State}, s'.overlaps = s.overlaps → s'.seq = s.seq →
    runSeq ps s = .next t → ∃ t', runSeq ps s' = .next t' ∧ t'.overlaps = t.overlaps := by
  induction ps with
  | nil => intro s s' t ho _ h; cases h; exact ⟨s', rfl, ho⟩
  | cons p ps ih =>
    intro s s' t ho hq h
    cases hr : landing s with
    | some r =>
      rw [runSeq, hr] at h
      exact absurd (hr.trans (congrArg some h)) landing_ne_next
    | none =>
      have hr' : landing s' = none := by rwa [landing_eq_none, hq, ho, ← landing_eq_none]
      rw [runSeq, hr] at h
      rw [runSeq, hr']
      exact ih (by simp [countdown_overlaps_congr ho]) (perform_seq_congr p _ _) h

/-! ### An operation does not see the registers it was called with -/

/-- `s` with the five datapath registers set. -/
def State.withDatapath (s : State) (txb rxb cmd stat : Held Byte) (acc : Held Word) : State :=
  { s with txb := txb, rxb := rxb, cmd := cmd, stat := stat, acc := acc }

theorem withDatapath_self (s : State) : s.withDatapath s.txb s.rxb s.cmd s.stat s.acc = s := rfl

/-- `s` with the frame's registers set, which a byte shift neither reads nor writes. -/
def State.withFrame (s : State) (cmd stat : Held Byte) (acc : Held Word) : State :=
  { s with cmd := cmd, stat := stat, acc := acc }

theorem withFrame_eq_withDatapath (s : State) (cmd stat : Held Byte) (acc : Held Word) :
    s.withFrame cmd stat acc = s.withDatapath s.txb s.rxb cmd stat acc := rfl

theorem shiftStep_withFrame (b : Byte) (i : Fin 8) (st : SlotStep) (s : State) (cmd stat : Held Byte)
    (acc : Held Word) :
    shiftStep b i st (s.withFrame cmd stat acc) = (shiftStep b i st s).withFrame cmd stat acc := by
  cases st <;> simp only [shiftStep] <;> split <;> rfl

theorem slotActions_withFrame (mk : SlotStep → Seq) (b : Byte) (i : Fin 8) (s : State) (cmd stat : Held Byte)
    (acc : Held Word) :
    slotActions mk b i (s.withFrame cmd stat acc) = (slotActions mk b i s).withFrame cmd stat acc := by
  have step (st : SlotStep) (s : State) : shiftStep b i st { s.withFrame cmd stat acc with seq := mk st } =
      (shiftStep b i st { s with seq := mk st }).withFrame cmd stat acc :=
    shiftStep_withFrame b i st { s with seq := mk st } cmd stat acc
  simp only [slotActions, slotSteps, List.foldl_cons, List.foldl_nil, step]

/-- The first slot of a byte loads TXB and clears RXB (R111). -/
theorem slotActions_withDatapath (mk : SlotStep → Seq) (b : Byte) (s : State) (txb rxb cmd stat : Held Byte)
    (acc : Held Word) :
    slotActions mk b 7 (s.withDatapath txb rxb cmd stat acc) = (slotActions mk b 7 s).withFrame cmd stat acc := by
  rw [slotActions_first, slotActions_first]
  rfl

/-- A byte shift reads no register it was started with (R32, R33). -/
theorem byteActions_withDatapath (mk : Fin 8 → SlotStep → Seq) (b : Byte) (s : State) (txb rxb cmd stat : Held Byte)
    (acc : Held Word) :
    byteActions mk b (s.withDatapath txb rxb cmd stat acc) = (byteActions mk b s).withFrame cmd stat acc := by
  simp only [byteActions, bitIndices, List.foldl_cons, List.foldl_nil, slotActions_withDatapath, slotActions_withFrame]

/-- INIT touches no datapath register (R32). -/
theorem init_withDatapath (s : State) (txb rxb cmd stat : Held Byte) (acc : Held Word) :
    performAll HostOp.init.positions (openCall .init (s.withDatapath txb rxb cmd stat acc)) =
      (performAll HostOp.init.positions (openCall .init s)).withDatapath txb rxb cmd stat acc := by
  rw [init_performed, init_performed]
  rfl

/-- XFER touches no register but the two of the byte shift (R32, R117). -/
theorem xfer_withDatapath (b : Byte) (s : State) (txb rxb cmd stat : Held Byte) (acc : Held Word) :
    performAll (HostOp.xfer b).positions (openCall (.xfer b) (s.withDatapath txb rxb cmd stat acc)) =
      (performAll (HostOp.xfer b).positions (openCall (.xfer b) s)).withFrame cmd stat acc := by
  have shifted : byteActions (Seq.xfer b) b (openCall (.xfer b) (s.withDatapath txb rxb cmd stat acc)) =
      (byteActions (Seq.xfer b) b (openCall (.xfer b) s)).withFrame cmd stat acc :=
    byteActions_withDatapath (Seq.xfer b) b (openCall (.xfer b) s) txb rxb cmd stat acc
  obtain ⟨r, e, -⟩ := byteActions_spec (Seq.xfer b) b (openCall (.xfer b) s)
  rw [performAll_xfer, performAll_xfer, shifted, e]
  rfl

/-- The command byte of a frame overwrites TXB, RXB and STAT (R127, R131). -/
theorem commandByte_withDatapath (t : Transaction) (s : State) (txb rxb stat : Held Byte) :
    performAll (frameBytePositions t 0) (s.withDatapath txb rxb s.cmd stat s.acc) =
      performAll (frameBytePositions t 0) s := by
  rw [performAll_frameByte t 0 (s := s) rfl, performAll_frameByte t 0 (s := s.withDatapath txb rxb s.cmd stat s.acc)
    (c := s.cmdByte) rfl, byteActions_withDatapath]
  obtain ⟨r, e, -⟩ := byteActions_spec (fun i st => .transact t (.byte 0 i st)) (frameByte s.cmdByte t.payload 0) s
  rw [e]
  rfl

/-- A frame's positions: SELECT asserted, the command byte, and the rest (R127). -/
theorem performAll_transact_split (t : Transaction) (s : State) :
    performAll (HostOp.transact t).positions s =
      performAll (([1, 2, 3, 4] : List (Fin 5)).flatMap (frameBytePositions t) ++ [Seq.transact t .selDeassert])
        (performAll (frameBytePositions t 0) (perform (.transact t .selAssert) s)) := by
  rw [HostOp.positions, performAll_cons, List.flatMap_cons, List.append_assoc, performAll_append]

/-- The start of a frame writes CMD and ACC (R127), and touches no other register. -/
theorem selAssert_withDatapath (t : Transaction) (s : State) (txb rxb cmd stat : Held Byte) (acc : Held Word) :
    perform (.transact t .selAssert) (openCall (.transact t) (s.withDatapath txb rxb cmd stat acc)) =
      let selected := perform (.transact t .selAssert) (openCall (.transact t) s)
      selected.withDatapath txb rxb selected.cmd stat selected.acc := rfl

/-- TRANSACT writes each of the five registers before it reads it (R33). -/
theorem transact_withDatapath (t : Transaction) (s : State) (txb rxb cmd stat : Held Byte) (acc : Held Word) :
    performAll (HostOp.transact t).positions (openCall (.transact t) (s.withDatapath txb rxb cmd stat acc)) =
      performAll (HostOp.transact t).positions (openCall (.transact t) s) := by
  rw [performAll_transact_split, selAssert_withDatapath, commandByte_withDatapath, ← performAll_transact_split]

/-- An operation leaves two states that differed in the datapath registers alone differing in them alone. -/
theorem performed_withDatapath (op : HostOp) (s : State) (txb rxb cmd stat : Held Byte) (acc : Held Word) :
    ∃ txb' rxb' cmd' stat' acc',
      performAll op.positions (openCall op (s.withDatapath txb rxb cmd stat acc)) =
        (performAll op.positions (openCall op s)).withDatapath txb' rxb' cmd' stat' acc' := by
  cases op with
  | init => exact ⟨_, _, _, _, _, init_withDatapath s txb rxb cmd stat acc⟩
  | xfer b =>
    rw [xfer_withDatapath, withFrame_eq_withDatapath]
    exact ⟨_, _, _, _, _, rfl⟩
  | transact t =>
    rw [transact_withDatapath]
    exact ⟨_, _, _, _, _, (withDatapath_self _).symm⟩

/-- Settles O39: the entry check, the calls of a second agent and the positions see none of the five registers. -/
theorem datapathDeadBetweenOperations : Obligations.DatapathDeadBetweenOperations := by
  intro i s txb rxb cmd stat acc t hi h
  obtain ⟨op, hop⟩ := Option.ne_none_iff_exists'.1 hi
  rw [exec_of_hostOp hop] at h ⊢
  obtain ⟨he, o, rfl⟩ := issue_next h
  have he' : entryCheck op (s.withDatapath txb rxb cmd stat acc) = none := entryCheck_eq_none.2 (entryCheck_eq_none (s := s).1 he)
  rw [issue_eq_runSeq he] at h
  obtain ⟨t', ht', ho⟩ := runSeq_congr (s' := openCall op (s.withDatapath txb rxb cmd stat acc))
    (by cases op <;> rfl) (by cases op <;> rfl) h
  obtain ⟨o', rfl⟩ := runSeq_next ht'
  obtain ⟨txb', rxb', cmd', stat', acc', e⟩ := performed_withDatapath op s txb rxb cmd stat acc
  obtain rfl : o' = o := ho
  refine ⟨_, issue_eq_runSeq he' |>.trans ht', ?_⟩
  rw [e]
  rfl

end Sys2Proof.Machine
end

section
/-! PROOF. What a step runs (`20_memory.md` R68, `30_encoding.md` R71), and the frame that a device latching DATA_OUT at
each active edge of CLOCK sees (`20_memory.md` R55). -/

namespace Sys2Proof.Machine

/-! ### What a step runs -/

/-- A step with SELECT just asserted runs the wire instruction of CMD. -/
theorem step_selAssert {s : State} {t : Transaction} (hq : s.seq = .transact t .selAssert) :
    step s = exec (decodeWire s.cmdByte) s := by
  simp only [step, nextInstr, hq]

/-- Settles O9: the host's next word with SEQ Idle, and CMD with SELECT just asserted. -/
theorem stepRunsDecodedInstruction : Obligations.StepRunsDecodedInstruction := by
  refine ⟨fun s w rest i hq hp hd => step_issues hq hp hd, fun s t b hq hc => ?_⟩
  have read : s.cmdByte = b := by simp only [State.cmdByte, hc, Held.read]
  rw [step_selAssert hq, read]

/-! ### Wire order -/

/-- The high part of a value goes over the wire first (R53). -/
theorem wireBits_append {n m : Nat} (x : BitVec n) (y : BitVec m) :
    wireBits (x ++ y) = wireBits x ++ wireBits y := by
  simp only [wireBits, List.range_add, List.map_append, List.map_map]
  congr 1
  · refine List.map_congr_left fun k hk => ?_
    have hk : k < n := List.mem_range.1 hk
    rw [BitVec.getLsbD_append, if_neg (by omega)]
    congr 1; omega
  · refine List.map_congr_left fun k hk => ?_
    have hk : k < m := List.mem_range.1 hk
    simp only [Function.comp_apply]
    rw [BitVec.getLsbD_append, if_pos (by omega)]
    congr 1; omega

/-- A word is its four bytes, most significant first (R54). -/
theorem wordOf_extracts (p : Word) :
    wordOf (p.extractLsb' 24 8) (p.extractLsb' 16 8) (p.extractLsb' 8 8) (p.extractLsb' 0 8) = p := by
  rw [wordOf, BitVec.extractLsb'_append_extractLsb'_eq_extractLsb' (by rfl),
    BitVec.extractLsb'_append_extractLsb'_eq_extractLsb' (by rfl),
    BitVec.extractLsb'_append_extractLsb'_eq_extractLsb' (by rfl)]
  exact BitVec.extractLsb'_eq_self

theorem wireBits_word (p : Word) :
    wireBits p = wireBits (p.extractLsb' 24 8) ++ wireBits (p.extractLsb' 16 8) ++ wireBits (p.extractLsb' 8 8) ++
      wireBits (p.extractLsb' 0 8) := by
  conv_lhs => rw [← wordOf_extracts p, wordOf]
  simp only [wireBits_append]

/-- The command byte is `R : ADDR` (R71). -/
theorem commandByte_eq_append (isRead : Bool) (a : Addr7) : commandByte isRead a = BitVec.ofBool isRead ++ a := by
  revert isRead a; decide

/-! ### What a device latches -/

/-- What a device in a frame has latched once `bs` more bits were sent, the last of them `last`. -/
def Latched.sent (d : Latched) (bs : List Bool) (last : Bool) : Latched :=
  { d with dataOut := .val (level last), bits := d.bits ++ bs }

theorem Latched.sent_sent (d : Latched) (bs bs' : List Bool) (last last' : Bool) :
    (d.sent bs last).sent bs' last' = d.sent (bs ++ bs') last' := by
  simp [Latched.sent]

/-- A bit slot in a frame latches the bit sent: DATA_OUT is driven before the active edge (R110, R115). -/
theorem latch_slotEvents {d : Latched} (h : d.inFrame = true) (b : Bool) (v : Level) :
    (slotEvents b v).foldl latchEvent d = d.sent [b] b := by
  simp [slotEvents, latchEvent, h, Held.read, Latched.sent]

theorem latch_slotEvents_sent {d : Latched} (h : d.inFrame = true) (bs : List Bool) (last b : Bool) (v : Level) :
    (slotEvents b v).foldl latchEvent (d.sent bs last) = d.sent (bs ++ [b]) b :=
  (latch_slotEvents (d := d.sent bs last) h b v).trans (d.sent_sent ..)

/-- A byte shift in a frame latches the byte sent, in wire order. -/
theorem latch_byteEvents {d : Latched} (h : d.inFrame = true) (out received : Byte) :
    (byteEvents out received).foldl latchEvent d = d.sent (wireBits out) (out.getLsbD 0) := by
  simp only [byteEvents, List.foldl_append, latch_slotEvents h, latch_slotEvents_sent h]
  rfl

theorem latch_byteEvents_sent {d : Latched} (h : d.inFrame = true) (bs : List Bool) (last : Bool)
    (out received : Byte) :
    (byteEvents out received).foldl latchEvent (d.sent bs last) = d.sent (bs ++ wireBits out) (out.getLsbD 0) :=
  (latch_byteEvents (d := d.sent bs last) h out received).trans (d.sent_sent ..)

/-- A TRANSACT's line events close one more frame, its 40 bits the command byte and the payload in wire order (R55). -/
theorem latch_frameEvents (d : Latched) (c : Byte) (p : Word) (stat : Byte) (result : Word) :
    (frameEvents c p stat result).foldl latchEvent d =
      { dataOut := .val (level (p.getLsbD 0))
        inFrame := false
        bits := wireBits c ++ wireBits p
        frames := d.frames ++ [wireBits c ++ wireBits p] } := by
  have opened : (latchEvent d (.write .select .low)).inFrame = true := rfl
  simp only [frameEvents, List.foldl_append, List.foldl_cons, List.foldl_nil, latch_byteEvents opened,
    latch_byteEvents_sent opened]
  simp [wireBits_word p, latchEvent, Latched.sent]

/-- A Call or a Return is no line event. -/
theorem latched_operation (tr es : List Event) (op : HostOp) (n : OpName) (v : ReturnValue) :
    latched (tr ++ [.call op] ++ es ++ [.ret n v]) = es.foldl latchEvent (latched tr) := by
  simp only [latched, List.foldl_append, List.foldl_cons, List.foldl_nil, latchEvent]

/-- A TRANSACT that answers a next state ran its frame. -/
theorem exec_transactInstr_next {tr : Transaction} {s t : State} (h : exec (transactInstr tr) s = .next t) :
    ∃ stat result o, t = (afterTransact tr stat result s).withOverlaps o := by
  rw [exec_transactInstr] at h
  obtain ⟨-, o, rfl⟩ := issue_next h
  obtain ⟨stat, result, e, -⟩ := transact_performed tr s
  exact ⟨stat, result, o, by rw [e]⟩

/-- The device has no open frame after a TRANSACT, and its `CMD : payload` as the last closed (R55). -/
theorem latched_exec_transactInstr {tr : Transaction} {s t : State} (h : exec (transactInstr tr) s = .next t) :
    (latched t.trace).inFrame = false ∧ (latched t.trace).frames = (latched s.trace).frames ++
      [wireBits (BitVec.ofBool tr.isRead ++ tr.address) ++ wireBits tr.payload] := by
  obtain ⟨stat, result, o, rfl⟩ := exec_transactInstr_next h
  have seen : latched ((afterTransact tr stat result s).withOverlaps o).trace = _ :=
    (latched_operation ..).trans (latch_frameEvents ..)
  rw [seen, commandByte_eq_append]
  exact ⟨rfl, rfl⟩

/-- Settles O47: both forms of TRANSACT, the read flag being bit 39 of the frame. -/
theorem deviceSeesTheFrame : Obligations.DeviceSeesTheFrame := fun a p _ _ =>
  ⟨latched_exec_transactInstr (tr := ⟨a, p, false⟩), latched_exec_transactInstr (tr := ⟨a, p, true⟩)⟩

end Sys2Proof.Machine
end

section
/-! PROOF. The host command word and its operation (`30_encoding.md` R77 to R83): which words the decoder takes as which
operation, and that the encoder's words are exactly those. -/

namespace Sys2Proof.Machine

/-! ### Words in parts -/

/-- Two values put together are equal exactly where both parts are. -/
theorem append_eq_append_iff {n m : Nat} {a c : BitVec n} {b d : BitVec m} : a ++ b = c ++ d ↔ a = c ∧ b = d := by
  refine ⟨fun h => ⟨?_, ?_⟩, fun ⟨ha, hb⟩ => by rw [ha, hb]⟩
  · rw [← BitVec.extractLsb'_append_eq_left (a := a) (b := b), h, BitVec.extractLsb'_append_eq_left]
  · rw [← BitVec.extractLsb'_append_eq_right (a := a) (b := b), h, BitVec.extractLsb'_append_eq_right]

/-- A mask of all the bits from `s` up compares exactly those bits (R83). -/
theorem and_upperMask_eq_iff {m s : Nat} (w : BitVec (m + s)) (u : BitVec m) :
    w &&& (BitVec.allOnes m ++ 0#s) = u ++ 0#s ↔ w.extractLsb' s m = u := by
  conv_lhs => rw [← BitVec.extractLsb'_append_extractLsb' (x := w)]
  rw [BitVec.and_append, BitVec.and_allOnes, BitVec.and_zero, BitVec.append_left_inj]

/-- One bit as a field of width 1. -/
theorem extractLsb'_one {n : Nat} (w : BitVec n) (k : Nat) : w.extractLsb' k 1 = BitVec.ofBool (w.getLsbD k) := by
  apply extractLsb'_eq_of_bits
  intro i hi
  obtain rfl : i = 0 := by omega
  simp

theorem ofBool_inj {b c : Bool} : BitVec.ofBool b = BitVec.ofBool c ↔ b = c := by
  revert b c; decide

/-- A field is not zero exactly where one of its bits is 1. -/
theorem extractLsb'_ne_zero_iff {n : Nat} (w : BitVec n) (start len : Nat) :
    w.extractLsb' start len ≠ 0#len ↔ ∃ k, start ≤ k ∧ k < start + len ∧ w.getLsbD k = true := by
  rw [← not_iff_not, not_not]
  push Not
  refine ⟨fun h k h1 h2 => ?_, fun h => extractLsb'_eq_of_bits fun i hi => ?_⟩
  · rw [getLsbD_of_extractLsb' h k h1 h2, BitVec.getLsbD_zero]
    decide
  · simpa using h (start + i) (by omega) (by omega)

/-! ### The words of each operation (R77) -/

/-- INIT's word: `OP` = 0 and its must-be-zero bits zero. -/
def IsInitWord (w : Hcw) : Prop := hcwOp w = 0#4 ∧ w.extractLsb' 0 44 = 0#44

/-- XFER's words: `OP` = 1 and its must-be-zero bits zero. -/
def IsXferWord (w : Hcw) : Prop := hcwOp w = 1#4 ∧ w.extractLsb' 8 36 = 0#36

/-- TRANSACT's words: `OP` = 2 and its must-be-zero bits zero. -/
def IsTransactWord (w : Hcw) : Prop := hcwOp w = 2#4 ∧ w.extractLsb' 41 3 = 0#3 ∧ w.getLsbD 39 = false

/-- The operands of a TRANSACT's word (R79). -/
def hcwTransaction (w : Hcw) : Transaction :=
  { address := w.extractLsb' 32 7, payload := hcwPayload w, isRead := hcwRd w }

theorem isInitWord_iff {w : Hcw} : IsInitWord w ↔ w = 0#4 ++ 0#44 := by
  rw [IsInitWord, hcwOp, ← append_eq_append_iff, BitVec.extractLsb'_append_extractLsb'_eq_extractLsb' (by rfl),
    BitVec.extractLsb'_eq_self]

theorem isXferWord_iff {w : Hcw} : IsXferWord w ↔ w.extractLsb' 8 40 = 1#4 ++ 0#36 := by
  rw [IsXferWord, hcwOp, ← append_eq_append_iff, BitVec.extractLsb'_append_extractLsb'_eq_extractLsb' (by rfl)]

theorem isTransactWord_iff {w : Hcw} {isRead : Bool} :
    IsTransactWord w ∧ hcwRd w = isRead ↔ w.extractLsb' 39 9 = 2#4 ++ 0#3 ++ BitVec.ofBool isRead ++ 0#1 := by
  have fields : w.extractLsb' 39 9 =
      hcwOp w ++ w.extractLsb' 41 3 ++ BitVec.ofBool (hcwRd w) ++ BitVec.ofBool (w.getLsbD 39) := by
    rw [hcwOp, hcwRd, ← extractLsb'_one, ← extractLsb'_one,
      BitVec.extractLsb'_append_extractLsb'_eq_extractLsb' (by rfl),
      BitVec.extractLsb'_append_extractLsb'_eq_extractLsb' (by rfl),
      BitVec.extractLsb'_append_extractLsb'_eq_extractLsb' (by rfl)]
  rw [fields]
  refine ⟨fun ⟨⟨hop, hz, h39⟩, hr⟩ => by rw [hop, hz, h39, hr]; rfl, fun h => ?_⟩
  obtain ⟨h, h39⟩ := append_eq_append_iff.1 h
  obtain ⟨h, hr⟩ := append_eq_append_iff.1 h
  obtain ⟨hop, hz⟩ := append_eq_append_iff.1 h
  exact ⟨⟨hop, hz, ofBool_inj.1 h39⟩, ofBool_inj.1 hr⟩

/-- Bit 39 is the top bit of the address argument: clear, the argument is the 7 bits of `ADDR` (R78). -/
theorem addressFits_hcwAddress (w : Hcw) : addressFits (hcwAddress w) = !w.getLsbD 39 := by
  rw [addressFits, BitVec.msb_eq_getLsbD_last, hcwAddress, BitVec.getLsbD_extractLsb']
  rfl

theorem setWidth_hcwAddress (w : Hcw) : (hcwAddress w).setWidth 7 = w.extractLsb' 32 7 := by
  rw [hcwAddress, BitVec.setWidth_extractLsb'_of_le (by decide)]

theorem hcwAddress_eq {w : Hcw} (h : w.getLsbD 39 = false) : hcwAddress w = (w.extractLsb' 32 7).setWidth 8 := by
  have fits : addressFits (hcwAddress w) = true := by rw [addressFits_hcwAddress, h]; rfl
  refine narrowAddress_eq_some.1 ?_
  rw [narrowAddress, if_pos fits, setWidth_hcwAddress]

theorem transactInstr_hcwTransaction {w : Hcw} (h : w.getLsbD 39 = false) :
    transactInstr (hcwTransaction w) =
      if hcwRd w then .transactR (hcwAddress w) (hcwPayload w) else .transactW (hcwAddress w) (hcwPayload w) := by
  rw [hcwAddress_eq h]
  rfl

/-! ### What the decoder makes of a word (R80) -/

theorem decodeHcw_of_isInitWord {w : Hcw} (h : IsInitWord w) : decodeHcw w = .instr .init := by
  obtain ⟨hop, hz⟩ := h
  simp [decodeHcw, hop, decodeInit, hz]

theorem decodeHcw_of_isXferWord {w : Hcw} (h : IsXferWord w) : decodeHcw w = .instr (.xfer (hcwOutByte w)) := by
  obtain ⟨hop, hz⟩ := h
  simp [decodeHcw, hop, decodeXfer, hz]

theorem decodeHcw_of_isTransactWord {w : Hcw} (h : IsTransactWord w) :
    decodeHcw w = .instr (transactInstr (hcwTransaction w)) := by
  obtain ⟨hop, hz, h39⟩ := h
  have fits : addressFits (hcwAddress w) = true := by rw [addressFits_hcwAddress, h39]; rfl
  rw [transactInstr_hcwTransaction h39]
  cases hr : hcwRd w <;> simp [decodeHcw, hop, decodeTransact, hz, fits, hr]

/-- Every other word is refused. -/
theorem decodeHcw_of_no_row {w : Hcw} (hi : ¬IsInitWord w) (hx : ¬IsXferWord w) (ht : ¬IsTransactWord w) :
    ∃ why, decodeHcw w = .reject why := by
  unfold decodeHcw decodeInit decodeXfer decodeTransact
  split
  · exact ⟨_, if_neg fun hz => hi ⟨‹_›, hz⟩⟩
  · split
    · exact ⟨_, if_neg fun hz => hx ⟨‹_›, hz⟩⟩
    · split
      · by_cases hz : w.extractLsb' 41 3 = 0#3
        · have wide : addressFits (hcwAddress w) = false := by
            rw [addressFits_hcwAddress, Bool.not_eq_false', ← Bool.not_eq_false]
            exact fun h39 => ht ⟨‹_›, hz, h39⟩
          exact ⟨.addressRange, by simp [hz, wide]⟩
        · exact ⟨_, if_pos hz⟩
      · exact ⟨_, rfl⟩

/-- A word that decodes is one of its operation's words, and its operands are that word's fields (R77, R79). -/
theorem decodeHcw_eq_instr_iff {w : Hcw} {i : Instr} :
    decodeHcw w = .instr i ↔ (IsInitWord w ∧ i = .init) ∨ (IsXferWord w ∧ i = .xfer (hcwOutByte w)) ∨
      (IsTransactWord w ∧ i = transactInstr (hcwTransaction w)) := by
  constructor
  · intro h
    by_cases hi : IsInitWord w
    · rw [decodeHcw_of_isInitWord hi] at h
      cases h
      exact .inl ⟨hi, rfl⟩
    by_cases hx : IsXferWord w
    · rw [decodeHcw_of_isXferWord hx] at h
      cases h
      exact .inr (.inl ⟨hx, rfl⟩)
    by_cases ht : IsTransactWord w
    · rw [decodeHcw_of_isTransactWord ht] at h
      cases h
      exact .inr (.inr ⟨ht, rfl⟩)
    obtain ⟨why, hr⟩ := decodeHcw_of_no_row hi hx ht
    rw [hr] at h
    cases h
  · rintro (⟨hi, rfl⟩ | ⟨hx, rfl⟩ | ⟨ht, rfl⟩)
    · exact decodeHcw_of_isInitWord hi
    · exact decodeHcw_of_isXferWord hx
    · exact decodeHcw_of_isTransactWord ht

/-- A word is refused exactly where it is no operation's. -/
theorem decodeHcw_eq_reject_iff {w : Hcw} :
    (∃ why, decodeHcw w = .reject why) ↔ ¬IsInitWord w ∧ ¬IsXferWord w ∧ ¬IsTransactWord w := by
  refine ⟨fun ⟨why, h⟩ => ⟨fun hi => ?_, fun hx => ?_, fun ht => ?_⟩, fun ⟨hi, hx, ht⟩ => decodeHcw_of_no_row hi hx ht⟩
  · rw [decodeHcw_of_isInitWord hi] at h; cases h
  · rw [decodeHcw_of_isXferWord hx] at h; cases h
  · rw [decodeHcw_of_isTransactWord ht] at h; cases h

/-! ### The encoder's words (R71, R77) -/

theorem encode_transactInstr (t : Transaction) :
    encode (transactInstr t) = .hcw (encodeTransact t.isRead (t.address.setWidth 8) t.payload) := by
  obtain ⟨a, p, r⟩ := t
  cases r <;> rfl

theorem addressFits_setWidth (a : Addr7) : addressFits (a.setWidth 8) = true := by
  revert a; decide

theorem wellFormed_transactInstr (t : Transaction) : (transactInstr t).wellFormed = true := by
  obtain ⟨a, p, r⟩ := t
  cases r <;> exact addressFits_setWidth a

theorem isXferWord_encode (b : Byte) : IsXferWord (1#4 ++ 0#36 ++ b) :=
  isXferWord_iff.2 BitVec.extractLsb'_append_eq_left

theorem hcwOutByte_encodeXfer (b : Byte) : hcwOutByte (1#4 ++ 0#36 ++ b) = b :=
  BitVec.extractLsb'_append_eq_right

theorem isTransactWord_encode (isRead : Bool) (a : Addr7) (p : Word) :
    IsTransactWord (encodeTransact isRead (a.setWidth 8) p) := by
  refine ⟨hcwOp_encodeTransact .., mustBeZero_encodeTransact .., ?_⟩
  have fits := addressFits_hcwAddress (encodeTransact isRead (a.setWidth 8) p)
  rw [hcwAddress_encodeTransact, addressFits_setWidth] at fits
  simpa using fits.symm

/-- The operands go into the word and come back (R77, R79). -/
theorem hcwTransaction_encode (t : Transaction) :
    hcwTransaction (encodeTransact t.isRead (t.address.setWidth 8) t.payload) = t := by
  rw [hcwTransaction, hcwPayload_encodeTransact, hcwRd_encodeTransact, ← setWidth_hcwAddress, hcwAddress_encodeTransact,
    BitVec.setWidth_setWidth_of_le _ (by decide), BitVec.setWidth_eq]

/-- A TRANSACT's word is made of its fields. -/
theorem encode_hcwTransaction {w : Hcw} (h : IsTransactWord w) : encode (transactInstr (hcwTransaction w)) = .hcw w := by
  obtain ⟨hop, hz, h39⟩ := h
  have word : encodeTransact (hcwRd w) (hcwAddress w) (hcwPayload w) = w := by
    rw [encodeTransact, ← hop, ← hz, hcwRd, ← extractLsb'_one, hcwOp, hcwAddress, hcwPayload,
      BitVec.extractLsb'_append_extractLsb'_eq_extractLsb' (by rfl),
      BitVec.extractLsb'_append_extractLsb'_eq_extractLsb' (by rfl),
      BitVec.extractLsb'_append_extractLsb'_eq_extractLsb' (by rfl),
      BitVec.extractLsb'_append_extractLsb'_eq_extractLsb' (by rfl)]
    exact BitVec.extractLsb'_eq_self
  rw [hcwAddress_eq h39] at word
  exact (encode_transactInstr _).trans (congrArg Code.hcw word)

theorem encode_xfer_hcwOutByte {w : Hcw} (h : IsXferWord w) : encode (.xfer (hcwOutByte w)) = .hcw w := by
  rw [encode, ← isXferWord_iff.1 h, hcwOutByte, BitVec.extractLsb'_append_extractLsb' (w := 40) (len := 8)]

/-- The wire instruction's code is the command byte (R71, R72). -/
theorem encode_wireInstr (isRead : Bool) (a : Addr7) : encode (wireInstr isRead a) = .wire (commandByte isRead a) := by
  rw [commandByte_eq_append]
  cases isRead <;> rfl

theorem decodeWire_commandByte (isRead : Bool) (a : Addr7) : decodeWire (commandByte isRead a) = wireInstr isRead a := by
  rw [decodeWire, commandByte_msb, commandByte_address, wireInstr]

/-- A well-formed TRANSACT is given by its 7-bit address (R78). -/
theorem decodeHcw_encodeTransact {isRead : Bool} {a : BitVec 8} (h : addressFits a = true) (p : Word) :
    decodeHcw (encodeTransact isRead a p) = .instr (if isRead then .transactR a p else .transactW a p) := by
  obtain ⟨a, rfl⟩ : ∃ a' : Addr7, a = a'.setWidth 8 := ⟨a.setWidth 7, narrowAddress_eq_some.1 (if_pos h)⟩
  have transaction := hcwTransaction_encode ⟨a, p, isRead⟩
  rw [decodeHcw_of_isTransactWord (isTransactWord_encode ..), transaction, transactInstr]

/-- Settles O1: each operation's word is one of its words, and its fields are the operands. -/
theorem decodeEncodeRoundTrip : Obligations.DecodeEncodeRoundTrip := by
  intro i h
  cases i with
  | init => exact decodeHcw_of_isInitWord (isInitWord_iff.2 rfl)
  | xfer b => exact (decodeHcw_of_isXferWord (isXferWord_encode b)).trans (by rw [hcwOutByte_encodeXfer])
  | transactW a p => exact decodeHcw_encodeTransact (isRead := false) h p
  | transactR a p => exact decodeHcw_encodeTransact (isRead := true) h p
  | cmdWrite a =>
    rw [show Instr.cmdWrite a = wireInstr false a from rfl, encode_wireInstr, decode, decodeWire_commandByte]
  | cmdRead a =>
    rw [show Instr.cmdRead a = wireInstr true a from rfl, encode_wireInstr, decode, decodeWire_commandByte]

/-- Settles O2: a word is made of its fields, and a command byte of its two. -/
theorem codeHasOneMeaning : Obligations.CodeHasOneMeaning := by
  intro c i h
  cases c with
  | hcw w =>
    obtain ⟨hi, rfl⟩ | ⟨hx, rfl⟩ | ⟨ht, rfl⟩ := decodeHcw_eq_instr_iff.1 h
    · exact ⟨congrArg Code.hcw (isInitWord_iff.1 hi).symm, rfl⟩
    · exact ⟨encode_xfer_hcwOutByte hx, rfl⟩
    · exact ⟨encode_hcwTransaction ht, wellFormed_transactInstr _⟩
  | wire b =>
    obtain ⟨isRead, a, hd, rfl⟩ := decodeWire_eq b
    rw [decode, hd] at h
    cases h
    exact ⟨encode_wireInstr isRead a, by cases isRead <;> rfl⟩

/-- Settles O3: the decoder's operands are the word's fields. -/
theorem operandsAreTheNamedBits : Obligations.OperandsAreTheNamedBits := by
  intro w i h
  obtain ⟨-, rfl⟩ | ⟨-, rfl⟩ | ⟨-, rfl⟩ := decodeHcw_eq_instr_iff.1 h
  · trivial
  · rfl
  · rw [hostOpOf_transactInstr]
    exact ⟨rfl, rfl, rfl⟩

end Sys2Proof.Machine
end

section
/-! PROOF. The refused words (`30_encoding.md` R78, R80), their mark (R157), and the rows of the opcode map (R83). -/

namespace Sys2Proof.Machine

/-! ### Which words are refused -/

/-- The must-be-zero bits of TRANSACT's words, one by one (R77). -/
theorem transactBits_iff (w : Hcw) :
    w.getLsbD 43 = true ∨ w.getLsbD 42 = true ∨ w.getLsbD 41 = true ∨ w.getLsbD 39 = true ↔
      ¬(w.extractLsb' 41 3 = 0#3 ∧ w.getLsbD 39 = false) := by
  rw [not_and_or, Bool.not_eq_false, ← ne_eq, extractLsb'_ne_zero_iff]
  constructor
  · rintro (h | h | h | h)
    exacts [.inl ⟨43, by omega, by omega, h⟩, .inl ⟨42, by omega, by omega, h⟩, .inl ⟨41, by omega, by omega, h⟩, .inr h]
  · rintro (⟨k, h1, h2, h⟩ | h)
    · interval_cases k
      exacts [.inr (.inr (.inl h)), .inr (.inl h), .inl h]
    · exact .inr (.inr (.inr h))

/-- A word is refused where `OP` is reserved, or a must-be-zero bit of its `OP` is 1 (R80). -/
theorem refused_iff_bits (w : Hcw) : (∃ why, decodeHcw w = .reject why) ↔
    (hcwOp w ≠ 0#4 ∧ hcwOp w ≠ 1#4 ∧ hcwOp w ≠ 2#4) ∨
    (hcwOp w = 0#4 ∧ ∃ k, k < 44 ∧ w.getLsbD k = true) ∨
    (hcwOp w = 1#4 ∧ ∃ k, 8 ≤ k ∧ k < 44 ∧ w.getLsbD k = true) ∨
    (hcwOp w = 2#4 ∧
      (w.getLsbD 43 = true ∨ w.getLsbD 42 = true ∨ w.getLsbD 41 = true ∨ w.getLsbD 39 = true)) := by
  have initBits : (∃ k, k < 44 ∧ w.getLsbD k = true) ↔ w.extractLsb' 0 44 ≠ 0#44 := by
    simp [extractLsb'_ne_zero_iff]
  have xferBits : (∃ k, 8 ≤ k ∧ k < 44 ∧ w.getLsbD k = true) ↔ w.extractLsb' 8 36 ≠ 0#36 :=
    (extractLsb'_ne_zero_iff w 8 36).symm
  rw [decodeHcw_eq_reject_iff, initBits, xferBits, transactBits_iff, IsInitWord, IsXferWord, IsTransactWord]
  by_cases h0 : hcwOp w = 0#4
  · simp [h0]
  by_cases h1 : hcwOp w = 1#4
  · simp [h1]
  by_cases h2 : hcwOp w = 2#4
  · simp [h2]
  simp [h0, h1, h2]

/-- A word with bit 39 set is refused, whatever its `OP` (R78). -/
theorem refused_of_bit39 {w : Hcw} (h : w.getLsbD 39 = true) : ∃ why, decodeHcw w = .reject why := by
  rw [refused_iff_bits]
  by_cases h0 : hcwOp w = 0#4
  · exact .inr (.inl ⟨h0, 39, by omega, h⟩)
  by_cases h1 : hcwOp w = 1#4
  · exact .inr (.inr (.inl ⟨h1, 39, by omega, by omega, h⟩))
  by_cases h2 : hcwOp w = 2#4
  · exact .inr (.inr (.inr ⟨h2, .inr (.inr (.inr h))⟩))
  exact .inl ⟨h0, h1, h2⟩

/-! ### The refusal mark -/

/-- A step with SEQ Idle refuses a word that spells no operation, stopped or not (R157). -/
theorem step_refuses {s : State} {w : Hcw} {rest : List Hcw} {why : Reject} (hq : s.seq = .idle)
    (hp : s.program = w :: rest) (hd : decodeHcw w = .reject why) :
    step s = refuseWord why w { s with program := rest } := by
  simp [step, nextInstr, hq, fetchHost, hp, hd]

@[simp] theorem act_refusals (p : Seq) (s : State) : (act p s).refusals = s.refusals := by
  cases p with
  | idle => rfl
  | init k => fin_cases k <;> rfl
  | xfer b i st => cases st <;> simp only [act, shiftStep] <;> split <;> rfl
  | transact t pos =>
    cases pos with
    | selAssert => rfl
    | selDeassert => rfl
    | byte j i st =>
      cases st <;> simp only [act, frameStep, shiftStep, storeByte] <;> (repeat' split) <;> rfl

@[simp] theorem complete_refusals (s : State) : (complete s).refusals = s.refusals := by
  unfold complete; split <;> rfl

/-- No position removes a mark. -/
@[simp] theorem perform_refusals (p : Seq) (s : State) : (perform p s).refusals = s.refusals := by
  unfold perform; split <;> simp

/-- An instruction that answers a next state leaves the marks as they were. -/
theorem exec_refusals {i : Instr} {s t : State} (h : exec i s = .next t) : t.refusals = s.refusals := by
  obtain ⟨-, -, o, rfl⟩ | ⟨b, r, o, -, -, rfl⟩ | ⟨tr, stat, result, o, -, -, rfl⟩ |
    ⟨isRead, a, tr, stat, o, -, -, -, -, rfl⟩ := exec_next h
  all_goals rfl

/-- A step that answers a next state refused nothing, so it leaves the marks as they were (R80). -/
theorem step_refusals {s t : State} (h : step s = .next t) : t.refusals = s.refusals := by
  obtain ⟨-, -, rfl⟩ | ⟨w, rest, i, -, -, -, hx⟩ | ⟨tr, -, hx⟩ | ⟨-, hx⟩ := step_next h
  · rfl
  · exact exec_refusals (s := { s with program := rest }) hx
  · obtain ⟨tr, stat, o, rfl⟩ := sendCommandByte_leaves hx
    rfl
  · obtain ⟨p, o, -, rfl⟩ | ⟨-, rfl⟩ := advance_next hx
    · exact perform_refusals p s
    · exact complete_refusals s

/-- Settles O4: the bits of a refused word, the step that refuses it, and the marks no step removes. -/
theorem refusedHostWords : Obligations.RefusedHostWords :=
  ⟨refused_iff_bits, fun _ _ _ _ hq hp hd => step_refuses hq hp hd, fun _ _ => step_refusals⟩

/-! ### A wide address -/

/-- TRANSACT with an address of 0x80 or more is refused before any check of state, as a word with bit 39 set (R78). -/
theorem transact_wide {a : BitVec 8} (h : 0x80 ≤ a.toNat) (isRead : Bool) (p : Word) (s : State) :
    ∃ w : Hcw, w.getLsbD 39 = true ∧ transact isRead a p s =
      .refused (.commandWord .addressRange w { s with refusals := s.refusals ++ [w] }) := by
  have wide : a.msb = true := by rw [BitVec.msb_eq_decide]; exact decide_eq_true h
  refine ⟨encodeTransact isRead a p, ?_, ?_⟩
  · rw [getLsbD_encodeTransact]
    exact (BitVec.msb_eq_getLsbD_last a).symm.trans wide
  · rw [transact, narrowAddress_eq_none.2 wide]
    rfl

/-- Settles O5: the operand, in both forms of TRANSACT, and the word. -/
theorem wideAddressRefused : Obligations.WideAddressRefused :=
  ⟨fun _ p s h => ⟨transact_wide h false p s, transact_wide h true p s⟩, fun _ => refused_of_bit39⟩

/-! ### The rows of the opcode map -/

theorem isInitWord_iff_row (w : Hcw) : IsInitWord w ↔ w &&& 0xFFFFFFFFFFFF = 0x000000000000 := by
  rw [isInitWord_iff, show (0xFFFFFFFFFFFF : Hcw) = BitVec.allOnes 48 from rfl, BitVec.and_allOnes]
  rfl

theorem isXferWord_iff_row (w : Hcw) : IsXferWord w ↔ w &&& 0xFFFFFFFFFF00 = 0x100000000000 :=
  isXferWord_iff.trans (and_upperMask_eq_iff (m := 40) (s := 8) w (1#4 ++ 0#36)).symm

theorem isTransactWord_iff_row (w : Hcw) (isRead : Bool) : IsTransactWord w ∧ hcwRd w = isRead ↔
    w &&& 0xFF8000000000 = if isRead then 0x210000000000 else 0x200000000000 := by
  rw [isTransactWord_iff, ← and_upperMask_eq_iff (m := 9) (s := 39) w]
  cases isRead <;> rfl

/-- The wire rows' mask keeps the read flag (R71). -/
theorem commandByte_and_readFlag (isRead : Bool) (a : Addr7) :
    commandByte isRead a &&& 0x80 = if isRead then 0x80 else 0x00 := by
  revert isRead a; decide

/-- The four rows of host command words, and the instruction each gives (R83). -/
theorem decodeHcw_eq_instr_iff_rows {w : Hcw} {i : Instr} : decodeHcw w = .instr i ↔
    (IsInitWord w ∧ i = .init) ∨ (IsXferWord w ∧ i = .xfer (hcwOutByte w)) ∨
    ((IsTransactWord w ∧ hcwRd w = false) ∧ i = .transactW (hcwAddress w) (hcwPayload w)) ∨
    ((IsTransactWord w ∧ hcwRd w = true) ∧ i = .transactR (hcwAddress w) (hcwPayload w)) := by
  have transact : IsTransactWord w ∧ i = transactInstr (hcwTransaction w) ↔
      ((IsTransactWord w ∧ hcwRd w = false) ∧ i = .transactW (hcwAddress w) (hcwPayload w)) ∨
      ((IsTransactWord w ∧ hcwRd w = true) ∧ i = .transactR (hcwAddress w) (hcwPayload w)) := by
    by_cases ht : IsTransactWord w
    · have ⟨_, _, h39⟩ := ht
      rw [transactInstr_hcwTransaction h39]
      cases hcwRd w <;> simp [ht]
    · simp [ht]
  rw [decodeHcw_eq_instr_iff, transact]

/-- A word that is no TRANSACT's is in neither of its rows. -/
theorem not_isTransactWord_iff_row (w : Hcw) :
    ¬IsTransactWord w ↔ w &&& 0xFF8000000000 ≠ 0x200000000000 ∧ w &&& 0xFF8000000000 ≠ 0x210000000000 := by
  have write := isTransactWord_iff_row w false
  have read := isTransactWord_iff_row w true
  rw [if_neg (by decide)] at write
  rw [if_pos rfl] at read
  rw [ne_eq, ne_eq, ← write, ← read]
  cases hcwRd w <;> simp

/-- Settles O6: each row's words are its operation's, and bit 7 tells the two rows of a command byte. -/
theorem opcodeMapRows : Obligations.OpcodeMapRows := by
  refine ⟨fun w => ⟨?_, ?_, ?_, ?_, ?_⟩, fun b => ?_⟩
  · rw [← isInitWord_iff_row]
    simp [decodeHcw_eq_instr_iff_rows]
  · rw [← isXferWord_iff_row]
    simp [decodeHcw_eq_instr_iff_rows]
  · refine Iff.trans ?_ (isTransactWord_iff_row w false)
    simp [decodeHcw_eq_instr_iff_rows]
  · refine Iff.trans ?_ (isTransactWord_iff_row w true)
    simp [decodeHcw_eq_instr_iff_rows]
  · rw [decodeHcw_eq_reject_iff, isInitWord_iff_row, isXferWord_iff_row, not_isTransactWord_iff_row]
  · obtain ⟨isRead, a, hd, rfl⟩ := decodeWire_eq b
    rw [hd, commandByte_and_readFlag]
    cases isRead <;> simp [wireInstr]

end Sys2Proof.Machine
end

section
/-! PROOF. The command byte (`30_encoding.md` R71, R72): its fields, its sending right after SELECT is asserted (R127,
R131), and its refusal anywhere else (R81); and the worked encodings (R87). -/

namespace Sys2Proof.Machine

/-! ### Where the command byte is sent -/

/-- Right after SELECT is asserted in the frame whose command byte it is, the byte is shifted (R127, R131). -/
theorem sendCommandByte_sends {s : State} {t : Transaction} {b : Byte} (hf : s.fault = []) (ho : s.overlaps = [])
    (hq : s.seq = .transact t .selAssert) (hb : s.cmdByte = b) :
    ∃ stat, sendCommandByte b s = .next (afterCommandByte t b stat s) := by
  obtain ⟨stat, e, -⟩ := commandByte_performed t hb
  refine ⟨stat, ?_⟩
  rw [sendCommandByte, if_neg (fun h => isStopped_iff.1 h hf), hq]
  simp only [if_pos hb, runSeq_alone _ ho, e]

/-- Anywhere else the byte is refused (R81, R83). -/
theorem sendCommandByte_refused {s : State} {b : Byte} (hf : s.fault = [])
    (h : (∀ t, s.seq ≠ .transact t .selAssert) ∨ s.cmdByte ≠ b) :
    sendCommandByte b s = .refused (.wireByte b s) := by
  rw [sendCommandByte, if_neg (fun h => isStopped_iff.1 h hf)]
  split
  · rename_i t hq
    exact if_neg (h.resolve_left fun hn => hn t hq)
  · rfl

theorem cmdByte_of_cmd {s : State} {b : Byte} (h : s.cmd = .val b) : s.cmdByte = b := by
  rw [State.cmdByte, h, Held.read]

/-- The last bit of the command byte to be sent is the address's (R53, R72). -/
theorem commandByte_getLsbD_zero (isRead : Bool) (a : Addr7) : (commandByte isRead a).getLsbD 0 = a.getLsbD 0 := by
  revert isRead a; decide

/-- Settles O27: both wire instructions, by the shift of frame byte 0. -/
theorem commandByteSent : Obligations.CommandByteSent := by
  intro s t isRead a hf ho hq hc
  obtain ⟨stat, e⟩ := sendCommandByte_sends hf ho hq (cmdByte_of_cmd hc)
  refine ⟨stat, ?_⟩
  rw [← commandByte_getLsbD_zero isRead a]
  exact (exec_wireInstr isRead a s).trans e

/-- Settles O28: SEQ elsewhere, or another byte in CMD. -/
theorem commandByteElsewhereRefused : Obligations.CommandByteElsewhereRefused := by
  intro s isRead a hf h
  refine (exec_wireInstr isRead a s).trans (sendCommandByte_refused hf (h.imp_right ?_))
  rintro ⟨b, hc, hne⟩
  rwa [cmdByte_of_cmd hc]

/-! ### The command byte's fields, and the worked encodings -/

/-- Settles O7: the formula is the definition, and the two fields are read back. -/
theorem commandByteFields : Obligations.CommandByteFields := fun isRead a =>
  ⟨rfl, commandByte_msb isRead a, commandByte_address isRead a, decodeWire_commandByte isRead a⟩

/-- Settles O8: fixed words, each evaluated. -/
theorem workedEncodings : Obligations.WorkedEncodings := by
  unfold Obligations.WorkedEncodings
  decide

end Sys2Proof.Machine
end

section
/-! PROOF. The line primitives and the datapath's level map (`40_line_control.md` R90 to R94), INIT run twice (R98), and
the level of SELECT at INIT's CLOCK events (R101). -/

namespace Sys2Proof.Machine

/-! ### INIT's events -/

/-- What INIT appends to TRACE up to its write of SELECT (R97). -/
def initUntilSelect : List Event := [.call .init, .mode .select .output, .write .select .high]

/-- What INIT appends after its write of SELECT (R97). -/
def initAfterSelect : List Event :=
  [.mode .clock .output, .write .clock .high, .mode .dataOut .output, .mode .dataIn (.input Config.dinPull), .ret .init .none]

theorem afterInit_trace (s : State) : (afterInit s).trace = s.trace ++ (initUntilSelect ++ initAfterSelect) := by
  simp [afterInit, initEvents, initUntilSelect, initAfterSelect]

/-! ### INIT twice -/

theorem exec_init_ready {s : State} (h : s.ReadyForInit) : exec .init s = .next (afterInit s) := initCompletes s h

/-- INIT may run again after INIT (R96). -/
theorem afterInit_readyForInit {s : State} (h : s.ReadyForInit) : (afterInit s).ReadyForInit :=
  ⟨h.running, rfl, h.alone⟩

/-- All that INIT writes but TRACE is the same from every state. -/
theorem afterInit_afterInit (s : State) :
    afterInit (afterInit s) = { afterInit s with trace := (afterInit (afterInit s)).trace } := rfl

/-- Settles O31: the second INIT starts where INIT may run, and appends the same events. -/
theorem initIdempotent : Obligations.InitIdempotent := by
  intro s h
  refine ⟨_, _, exec_init_ready h, exec_init_ready (afterInit_readyForInit h), ?_, rfl⟩
  rw [afterInit_afterInit, afterInit_trace (afterInit s), afterInit_trace s, List.drop_left]

/-! ### The level last written -/

theorem lastWrite_append_write (l : OutLine) (v : Level) (tr : List Event) :
    lastWrite l (tr ++ [.write l v]) = .val v := by
  simp [lastWrite]

/-- An event that is no write of a line leaves the level last written to it. -/
theorem lastWrite_append_other {l : OutLine} {e : Event} (h : ∀ v, e ≠ .write l v) (tr : List Event) :
    lastWrite l (tr ++ [e]) = lastWrite l tr := by
  cases e with
  | write l' v =>
    have hl : l' ≠ l := fun hl => h v (hl ▸ rfl)
    simp [lastWrite, hl]
  | _ => simp [lastWrite]

theorem lastWrite_append_of_not_written {l : OutLine} {es : List Event} (h : ∀ v, .write l v ∉ es) (tr : List Event) :
    lastWrite l (tr ++ es) = lastWrite l tr := by
  induction es generalizing tr with
  | nil => rw [List.append_nil]
  | cons e es ih =>
    have other : ∀ v, e ≠ .write l v := fun v he => h v (he ▸ List.mem_cons_self)
    rw [List.append_cons, ih fun v hv => h v (List.mem_cons_of_mem e hv), lastWrite_append_other other]

/-! ### INIT's CLOCK events -/

/-- An element that is not in the first part of a list comes after the whole of it. -/
theorem exists_between_of_not_mem {α : Type} {front rest before after : List α} {e : α} (h : e ∉ front)
    (joined : front ++ rest = before ++ e :: after) :
    ∃ between, before = front ++ between ∧ rest = between ++ e :: after := by
  obtain ⟨between, hb, hr⟩ | ⟨tail, rfl, hr⟩ := List.append_eq_append_iff.1 joined
  · exact ⟨between, hb, hr⟩
  · cases tail with
    | nil => exact ⟨[], by simp, by simpa using hr.symm⟩
    | cons x xs =>
      obtain rfl : e = x := (List.cons.inj hr).1
      exact absurd (List.mem_append_right before List.mem_cons_self) h

/-- SELECT is High from INIT's write of it to INIT's end. -/
theorem lastWrite_select_in_init (tr : List Event) {between : List Event} (h : between ⊆ initAfterSelect) :
    lastWrite .select (tr ++ (initUntilSelect ++ between)) = .val .high := by
  have written : ∀ v, Event.write .select v ∉ between := fun v hv => by simpa [initAfterSelect] using h hv
  have ends : tr ++ initUntilSelect = tr ++ [.call .init, .mode .select .output] ++ [.write .select .high] := by
    simp [initUntilSelect]
  rw [← List.append_assoc, lastWrite_append_of_not_written written, ends, lastWrite_append_write]

theorem clockEvent_not_mem_initUntilSelect {e : Event} (h : (∃ m, e = .mode .clock m) ∨ ∃ v, e = .write .clock v) :
    e ∉ initUntilSelect := by
  obtain ⟨m, rfl⟩ | ⟨v, rfl⟩ := h <;> simp [initUntilSelect]

/-- Settles O42: INIT's CLOCK events come after its write of SELECT, and it writes SELECT once. -/
theorem initClocksWithSelectHigh : Obligations.InitClocksWithSelectHigh := by
  intro s t before after e h htrace hclock
  obtain ⟨o, rfl⟩ := exec_init_next h
  have appended : initUntilSelect ++ initAfterSelect = before ++ e :: after :=
    List.append_cancel_left ((afterInit_trace s).symm.trans (htrace.trans (List.append_assoc ..)))
  obtain ⟨between, rfl, hrest⟩ := exists_between_of_not_mem (clockEvent_not_mem_initUntilSelect hclock) appended
  exact lastWrite_select_in_init s.trace (hrest ▸ List.subset_append_left ..)

/-! ### The line primitives -/

/-- Settles O18: a written line and a set mode are read back, and the rest stays. -/
theorem linePrimitives : Obligations.LinePrimitives := by
  refine ⟨fun l l' v s => ⟨?_, ?_, ?_⟩, fun l l' m s => ⟨?_, ?_, ?_⟩, fun _ _ => rfl⟩
  · rw [lineWrite, State.line_emit, State.line_setLine]
    simp only [eq_comm]
  · rw [lineWrite, State.emit_modes, State.setLine_modes]
  · rw [lineWrite, State.emit_trace, State.setLine_trace]
  · rw [lineMode, State.mode_emit, State.mode_setMode]
    simp only [eq_comm]
  · rw [lineMode, State.emit_lines, State.setMode_lines]
  · rw [lineMode, State.emit_trace, State.setMode_trace]

/-- With no level fixed the oracle answers (R23). -/
theorem answer_of_dataIn_nil {s : State} (h : s.dataIn = []) : s.answer = Config.device s.trace s.draws := by
  rw [State.answer, h]

/-- The next level the environment has fixed is the answer. -/
theorem answer_of_dataIn_cons {s : State} {v : Level} {rest : List Level} (h : s.dataIn = v :: rest) : s.answer = v := by
  rw [State.answer, h]

/-- Settles O19: the read is its definition, and the answer is one of the two. -/
theorem lineReadAsksTheDevice : Obligations.LineReadAsksTheDevice :=
  ⟨fun _ => rfl, fun _ => answer_of_dataIn_nil, fun _ _ _ => answer_of_dataIn_cons⟩

/-- Settles O20: each map undoes the other. -/
theorem levelAndBitInverse : Obligations.LevelAndBitInverse := ⟨rfl, rfl, bit_level, level_bit⟩

end Sys2Proof.Machine
end

section
/-! PROOF. The byte shifter (`41_byte_shifter.md` R110 to R117): the byte received forgets what RXB held (R114), and XFER
completes with the levels sampled (R112, R113). -/

namespace Sys2Proof.Machine

/-! ### The byte received -/

/-- Settles O22: the eight writes in order are those of a byte shift, which leave every bit written. -/
theorem receivedByteForgetsItsStart : Obligations.ReceivedByteForgetsItsStart := fun x y =>
  BitVec.eq_of_getLsbD_eq fun j hj => setBit_all x (fun i => y.getLsbD i.val) ⟨j, hj⟩

/-! ### Operations that may start -/

theorem entryCheck_ready {s : State} (h : s.Ready) (op : HostOp) : entryCheck op s = none :=
  entryCheck_passes h.running h.idle fun _ => h.initDone

/-- XFER completes from every ready state; bit 7 - k of what it returns is the k-th sample. -/
theorem exec_xfer_ready {s : State} (h : s.Ready) (b : Byte) :
    ∃ r, exec (.xfer b) s = .next (afterXfer b r s) ∧
      ∀ k : Fin 8, ∀ v, s.dataIn[k.val]? = some v → r.getLsbD (7 - k.val) = bit v := by
  obtain ⟨r, performed, samples⟩ := xfer_performed b s
  exact ⟨r, performed ▸ issue_alone (entryCheck_ready h _) h.alone, samples⟩

/-- Both forms of TRANSACT complete from every ready state; bit 39 - k of the 40 received is the k-th sample. -/
theorem exec_transactInstr_ready {s : State} (h : s.Ready) (tr : Transaction) :
    ∃ stat result, exec (transactInstr tr) s = .next (afterTransact tr stat result s) ∧
      ∀ k : Fin 40, ∀ v, s.dataIn[k.val]? = some v → (stat ++ result : BitVec 40).getLsbD (39 - k.val) = bit v := by
  obtain ⟨stat, result, performed, samples⟩ := transact_performed tr s
  refine ⟨stat, result, ?_, samples⟩
  rw [exec_transactInstr, ← performed]
  exact issue_alone (entryCheck_ready h _) h.alone

/-- Settles O24: XFER's positions performed, where its entry check passes. -/
theorem xferCompletes : Obligations.XferCompletes := by
  intro s b h
  obtain ⟨r, e, -⟩ := exec_xfer_ready h b
  exact ⟨r, e⟩

/-! ### Levels the environment has fixed -/

@[simp] theorem length_wireLevels {n : Nat} (v : BitVec n) : (wireLevels v).length = n := by
  simp [wireLevels, wireBits]

/-- The k-th level in wire order is that of bit n - 1 - k (R53). -/
theorem getElem?_wireLevels {n k : Nat} (v : BitVec n) (hk : k < n) :
    (wireLevels v)[k]? = some (level (v.getLsbD (n - 1 - k))) := by
  simp [wireLevels, wireBits, hk]

/-- A value whose bits are the samples is the value the environment has fixed. -/
theorem eq_of_samples {n : Nat} {levels rest : List Level} {received r : BitVec n}
    (fixed : levels = wireLevels r ++ rest)
    (samples : ∀ k : Fin n, ∀ v, levels[k.val]? = some v → received.getLsbD (n - 1 - k.val) = bit v) :
    received = r := by
  refine BitVec.eq_of_getLsbD_eq fun j hj => ?_
  have hk : n - 1 - j < n := by omega
  have sampled : levels[n - 1 - j]? = some (level (r.getLsbD (n - 1 - (n - 1 - j)))) := by
    rw [fixed, List.getElem?_append_left (by simpa using hk), getElem?_wireLevels r hk]
  have bits := samples ⟨n - 1 - j, hk⟩ _ sampled
  rwa [bit_level, show n - 1 - (n - 1 - j) = j by omega] at bits

/-- An operation's Return is the last event of its trace. -/
theorem getLast?_ret (es : List Event) (n : OpName) (v : ReturnValue) :
    (es ++ [Event.ret n v]).getLast? = some (.ret n v) := List.getLast?_concat

/-- Settles O29: the samples are the levels fixed, and eight of them are used up. -/
theorem xferReturnsTheSamples : Obligations.XferReturnsTheSamples := by
  intro s b r rest h fixed
  obtain ⟨received, e, samples⟩ := exec_xfer_ready h b
  obtain rfl := eq_of_samples fixed samples
  refine ⟨_, e, ?_, getLast?_ret ..⟩
  show s.dataIn.drop 8 = rest
  rw [fixed, List.drop_left' (length_wireLevels received)]

end Sys2Proof.Machine
end

section
/-! PROOF. The events of a byte shift: their counts (`41_byte_shifter.md` R120), and where they read DATA_IN and write
DATA_OUT (R115, R116). What an instruction appends is made of bit slots and of events that do neither. -/

namespace Sys2Proof.Machine

/-! ### Counts (R120) -/

/-- An event that writes DATA_OUT. -/
def Event.isDataOutWrite (e : Event) : Bool := e == .write .dataOut .low || e == .write .dataOut .high

/-- An event that writes CLOCK. -/
def Event.isClockWrite (e : Event) : Bool := e == .write .clock .low || e == .write .clock .high

theorem dataOutWrites_slotEvents (b : Bool) (v : Level) : (slotEvents b v).countP Event.isDataOutWrite = 1 := by
  cases b <;> rfl

theorem clockWrites_slotEvents (b : Bool) (v : Level) :
    (slotEvents b v).filter Event.isClockWrite = [.write .clock .low, .write .clock .high] := by
  cases b <;> rfl

theorem delays_slotEvents (b : Bool) (v : Level) : (slotEvents b v).count (.delay .tSettle) = 2 := by
  cases b <;> rfl

theorem length_byteEvents (out received : Byte) : (byteEvents out received).length = 48 := rfl

theorem dataOutWrites_byteEvents (out received : Byte) :
    (byteEvents out received).countP Event.isDataOutWrite = 8 := by
  simp only [byteEvents, List.countP_append, dataOutWrites_slotEvents]

theorem clockWrites_byteEvents (out received : Byte) : (byteEvents out received).filter Event.isClockWrite =
    (List.replicate 8 [.write .clock .low, .write .clock .high]).flatten := by
  simp only [byteEvents, List.filter_append, clockWrites_slotEvents]
  rfl

theorem delays_byteEvents (out received : Byte) : (byteEvents out received).count (.delay .tSettle) = 16 := by
  simp only [byteEvents, List.count_append, delays_slotEvents]

/-- Settles O40: XFER's line events are those of one byte shift, eight bit slots. -/
theorem xferEventCounts : Obligations.XferEventCounts := by
  intro b s t h
  obtain ⟨r, o, rfl⟩ := exec_xfer_next h
  exact ⟨byteEvents b r, .byte r, rfl, length_byteEvents b r, dataOutWrites_byteEvents b r, clockWrites_byteEvents b r,
    readCount_byteEvents b r, delays_byteEvents b r⟩

/-! ### Bit slots, and the events outside them -/

/-- An event that may stand outside the bit slots: no read, no delay, no write of DATA_OUT and no active edge. -/
def Event.outsideSlots : Event → Bool
  | .write .dataOut _ => false
  | .write .clock v => v == .high
  | .write .select _ => true
  | .read _ => false
  | .delay _ => false
  | .mode _ _ => true
  | .call _ => true
  | .ret _ _ => true

/-- Events that are whole bit slots, and single events outside them. -/
inductive MadeOfSlots : List Event → Prop where
  | nil : MadeOfSlots []
  | slot (b : Bool) (v : Level) {es : List Event} : MadeOfSlots es → MadeOfSlots (slotEvents b v ++ es)
  | single {e : Event} {es : List Event} : e.outsideSlots = true → MadeOfSlots es → MadeOfSlots (e :: es)

theorem MadeOfSlots.append {es fs : List Event} (h : MadeOfSlots es) (h' : MadeOfSlots fs) : MadeOfSlots (es ++ fs) := by
  induction h with
  | nil => exact h'
  | slot b v _ ih => rw [List.append_assoc]; exact .slot b v ih
  | single he _ ih => exact .single he ih

theorem madeOfSlots_single {e : Event} (h : e.outsideSlots = true) : MadeOfSlots [e] := .single h .nil

theorem madeOfSlots_slotEvents (b : Bool) (v : Level) : MadeOfSlots (slotEvents b v) := .slot b v .nil

theorem madeOfSlots_byteEvents (out received : Byte) : MadeOfSlots (byteEvents out received) := by
  repeat' apply MadeOfSlots.append
  all_goals exact madeOfSlots_slotEvents _ _

theorem madeOfSlots_frameEvents (c : Byte) (p : Word) (stat : Byte) (result : Word) :
    MadeOfSlots (frameEvents c p stat result) := by
  have bytes (out received : Byte) {es : List Event} (h : MadeOfSlots es) : MadeOfSlots (es ++ byteEvents out received) :=
    h.append (madeOfSlots_byteEvents out received)
  have opened : MadeOfSlots [.write .select .low] := madeOfSlots_single rfl
  exact (bytes _ _ (bytes _ _ (bytes _ _ (bytes _ _ (bytes _ _ opened))))).append (madeOfSlots_single rfl)

theorem madeOfSlots_initEvents : MadeOfSlots initEvents :=
  .single rfl (.single rfl (.single rfl (.single rfl (.single rfl (madeOfSlots_single rfl)))))

/-- A host operation's events: its Call, its line events and its Return (R37). -/
def operationEvents (op : HostOp) (es : List Event) (n : OpName) (v : ReturnValue) : List Event :=
  [.call op] ++ es ++ [.ret n v]

theorem append_operationEvents (tr : List Event) (op : HostOp) (es : List Event) (n : OpName) (v : ReturnValue) :
    tr ++ [.call op] ++ es ++ [.ret n v] = tr ++ operationEvents op es n v := by
  simp [operationEvents]

theorem madeOfSlots_operationEvents {es : List Event} (h : MadeOfSlots es) (op : HostOp) (n : OpName) (v : ReturnValue) :
    MadeOfSlots (operationEvents op es n v) :=
  ((madeOfSlots_single (e := .call op) rfl).append h).append (madeOfSlots_single rfl)

/-- What an instruction appends is made of bit slots: it reads DATA_IN and writes DATA_OUT in them only (R110). -/
theorem exec_madeOfSlots {i : Instr} {s t : State} (h : exec i s = .next t) :
    ∃ es, t.trace = s.trace ++ es ∧ MadeOfSlots es := by
  obtain ⟨-, -, o, rfl⟩ | ⟨b, r, o, -, -, rfl⟩ | ⟨tr, stat, result, o, -, -, rfl⟩ |
    ⟨isRead, a, tr, stat, o, -, -, -, -, rfl⟩ := exec_next h
  · exact ⟨_, append_operationEvents .., madeOfSlots_operationEvents madeOfSlots_initEvents ..⟩
  · exact ⟨_, append_operationEvents .., madeOfSlots_operationEvents (madeOfSlots_byteEvents b r) ..⟩
  · exact ⟨_, append_operationEvents .., madeOfSlots_operationEvents (madeOfSlots_frameEvents ..) ..⟩
  · exact ⟨_, rfl, madeOfSlots_byteEvents ..⟩

/-! ### Where an event stands in a list of two parts -/

/-- An element of a list of two parts is in the first, or comes after the whole of it. -/
theorem front_or_rest {α : Type} {front rest before after : List α} {e : α} (joined : front ++ rest = before ++ e :: after) :
    (∃ tail, front = before ++ e :: tail) ∨ ∃ between, before = front ++ between ∧ rest = between ++ e :: after := by
  obtain ⟨between, hb, hr⟩ | ⟨tail, hf, hr⟩ := List.append_eq_append_iff.1 joined
  · exact .inr ⟨between, hb, hr⟩
  · cases tail with
    | nil => exact .inr ⟨[], by simpa using hf.symm, hr.symm⟩
    | cons x xs =>
      obtain ⟨rfl, -⟩ := List.cons.inj hr
      exact .inl ⟨xs, hf⟩

/-- An event that may not stand outside the slots, among events of which the first stands there, comes after it. -/
theorem between_of_outsideSlots {e e' : Event} {es before after : List Event} (he : e.outsideSlots = true)
    (he' : e'.outsideSlots = false) (h : e :: es = before ++ e' :: after) :
    ∃ between, before = e :: between ∧ es = between ++ e' :: after :=
  exists_between_of_not_mem (front := [e]) (fun same => by simp [List.mem_singleton.1 same, he] at he') h

/-! ### Reads (R116) -/

/-- The events of a bit slot that sends `b`, up to the active edge (R110). -/
def slotUntilEdge (b : Bool) : List Event := [.write .dataOut (level b), .delay .tSettle, .write .clock .low]

/-- A bit slot reads once, right after the active edge. -/
theorem before_read_in_slot {b : Bool} {v v' : Level} {before after : List Event}
    (h : slotEvents b v = before ++ .read v' :: after) : before = slotUntilEdge b := by
  obtain ⟨first, -, -⟩ : before = slotUntilEdge b ∧ v' = v ∧ after = [.delay .tSettle, .write .clock .high] := by
    simpa [slotEvents, slotUntilEdge, List.cons_eq_append_iff] using h
  exact first

theorem MadeOfSlots.read_after_edge {es : List Event} (h : MadeOfSlots es) : ∀ {before after : List Event} {v : Level},
    es = before ++ .read v :: after → before.getLast? = some (.write .clock .low) := by
  induction h with
  | nil => intro before after v joined; simp at joined
  | slot b w _ ih =>
    intro before after v joined
    obtain ⟨tail, inSlot⟩ | ⟨between, rfl, later⟩ := front_or_rest joined
    · rw [before_read_in_slot inSlot]; rfl
    · rw [List.getLast?_append, ih later]; rfl
  | single he _ ih =>
    intro before after v joined
    obtain ⟨between, rfl, later⟩ := between_of_outsideSlots he rfl joined
    rw [List.getLast?_cons, ih later]; rfl

/-- Settles O43: every read is in a bit slot, right after its active edge. -/
theorem readRightAfterActiveEdge : Obligations.ReadRightAfterActiveEdge := by
  intro i s t before after v h htrace
  obtain ⟨es, appended, slots⟩ := exec_madeOfSlots h
  rw [appended, List.append_assoc] at htrace
  exact slots.read_after_edge (List.append_cancel_left htrace)

/-! ### Writes of DATA_OUT (R115) -/

/-- A bit slot writes DATA_OUT once, before everything else. -/
theorem before_dataOut_in_slot {b : Bool} {v v' : Level} {before after : List Event}
    (h : slotEvents b v = before ++ .write .dataOut v' :: after) : before = [] := by
  obtain ⟨first, -, -⟩ : before = [] ∧ v' = level b ∧ after = (slotEvents b v).tail := by
    simpa [slotEvents, List.cons_eq_append_iff] using h
  exact first

/-- A bit slot ends with CLOCK High. -/
theorem lastWrite_clock_slotEvents (tr : List Event) (b : Bool) (v : Level) :
    lastWrite .clock (tr ++ slotEvents b v) = .val .high := by
  simp [lastWrite, slotEvents]

/-- Outside the slots CLOCK is only written High. -/
theorem lastWrite_clock_outsideSlots {tr : List Event} {e : Event} (h : lastWrite .clock tr = .val .high)
    (he : e.outsideSlots = true) : lastWrite .clock (tr ++ [e]) = .val .high := by
  by_cases written : ∃ v, e = .write .clock v
  · obtain ⟨v, rfl⟩ := written
    obtain rfl : v = .high := by simpa [Event.outsideSlots] using he
    exact lastWrite_append_write ..
  · rw [lastWrite_append_other fun v hv => written ⟨v, hv⟩, h]

theorem MadeOfSlots.dataOut_with_clock_high {es : List Event} (h : MadeOfSlots es) :
    ∀ {tr before after : List Event} {v : Level}, lastWrite .clock tr = .val .high →
      es = before ++ .write .dataOut v :: after → lastWrite .clock (tr ++ before) = .val .high := by
  induction h with
  | nil => intro tr before after v _ joined; simp at joined
  | slot b w _ ih =>
    intro tr before after v high joined
    obtain ⟨tail, inSlot⟩ | ⟨between, rfl, later⟩ := front_or_rest joined
    · rw [before_dataOut_in_slot inSlot, List.append_nil, high]
    · rw [← List.append_assoc]
      exact ih (lastWrite_clock_slotEvents tr b w) later
  | single he _ ih =>
    intro tr before after v high joined
    obtain ⟨between, rfl, later⟩ := between_of_outsideSlots he rfl joined
    rw [List.append_cons]
    exact ih (lastWrite_clock_outsideSlots high he) later

/-- Settles O44: every write of DATA_OUT starts a bit slot, and CLOCK is High between slots. -/
theorem dataOutChangesWithClockHigh : Obligations.DataOutChangesWithClockHigh := by
  intro i s t before after v hs hclock h htrace
  have high : lastWrite .clock s.trace = .val .high := (hs.lines .clock).symm.trans hclock
  obtain ⟨es, appended, slots⟩ := exec_madeOfSlots h
  rw [appended, List.append_assoc] at htrace
  exact slots.dataOut_with_clock_high high (List.append_cancel_left htrace)

end Sys2Proof.Machine
end

section
/-! PROOF. The device's answers: what BBT receives from a device whose answer to a slot depends on the bit sent alone,
which DATA_OUT wired to DATA_IN (`41_byte_shifter.md` R118) and a stuck DATA_IN (R119, `42_transaction_framer.md` R141)
both are. -/

namespace Sys2Proof.Machine

/-! ### Reads answered by an oracle -/

theorem follows_append (o : Oracle) (tr es fs : List Event) :
    follows o tr (es ++ fs) = (follows o tr es && follows o (tr ++ es) fs) := by
  induction es generalizing tr with
  | nil => simp [follows]
  | cons e es ih => simp [follows, ih, Bool.and_assoc]

theorem follows_slotEvents (o : Oracle) (tr : List Event) (b : Bool) (v : Level) :
    follows o tr (slotEvents b v) = (v == o (tr ++ slotUntilEdge b)) := by
  simp [follows, slotEvents, slotUntilEdge]

/-- The reads an operation appends are those of its line events. -/
theorem follows_lineEvents {o : Oracle} {tr appended es : List Event} {op : HostOp} {n : OpName} {v : ReturnValue}
    (h : tr ++ [.call op] ++ es ++ [.ret n v] = tr ++ appended) (answered : follows o tr appended = true) :
    follows o (tr ++ [.call op]) es = true := by
  rw [append_operationEvents] at h
  rw [← List.append_cancel_left h, operationEvents, follows_append, follows_append, Bool.and_eq_true,
    Bool.and_eq_true] at answered
  exact answered.1.2

/-! ### Devices that answer the bit sent -/

/-- The oracle's answer to the read of a slot is `f` of the bit the slot sends. -/
def AnswersBits (o : Oracle) (f : Bool → Level) : Prop := ∀ tr b, o (tr ++ slotUntilEdge b) = f b

theorem loopback_answersBits : AnswersBits loopback level := by
  intro tr b
  simp [loopback, lastWrite, slotUntilEdge, Held.read]

theorem stuckAt_answersBits (v : Level) : AnswersBits (stuckAt v) fun _ => v := fun _ _ => rfl

/-- Each bit received is the answer to the bit sent. -/
theorem received_of_answersBits {o : Oracle} {f : Bool → Level} (ho : AnswersBits o f) {tr : List Event}
    {out received : Byte} (h : follows o tr (byteEvents out received) = true) (i : Fin 8) :
    received.getLsbD i.val = bit (f (out.getLsbD i.val)) := by
  have slot : ∀ tr b c, follows o tr (slotEvents b (level c)) = true → c = bit (f b) := by
    intro tr b c h
    rw [follows_slotEvents, ho, beq_iff_eq] at h
    rw [← h, bit_level]
  simp only [byteEvents, follows_append, Bool.and_eq_true] at h
  obtain ⟨⟨⟨⟨⟨⟨⟨h7, h6⟩, h5⟩, h4⟩, h3⟩, h2⟩, h1⟩, h0⟩ := h
  fin_cases i
  exacts [slot _ _ _ h0, slot _ _ _ h1, slot _ _ _ h2, slot _ _ _ h3, slot _ _ _ h4, slot _ _ _ h5, slot _ _ _ h6,
    slot _ _ _ h7]

/-! ### Loopback (R118) -/

theorem received_loopback {tr : List Event} {out received : Byte}
    (h : follows loopback tr (byteEvents out received) = true) : received = out :=
  BitVec.eq_of_getLsbD_eq fun i hi =>
    (received_of_answersBits loopback_answersBits h ⟨i, hi⟩).trans (bit_level _)

/-- Settles O49: XFER completes, and each bit received is the bit sent. -/
theorem loopbackReturnsTheByte : Obligations.LoopbackReturnsTheByte := by
  intro b s h
  obtain ⟨r, e, -⟩ := exec_xfer_ready h b
  refine ⟨_, e, fun es appended answered => ?_⟩
  obtain rfl := received_loopback (follows_lineEvents appended answered)
  exact getLast?_ret ..

/-! ### A stuck line (R119, R141) -/

/-- The byte every bit of which is the level's. -/
def stuckByte (v : Level) : Byte := if v = .high then 0xFF else 0x00

/-- The word every bit of which is the level's. -/
def stuckWord (v : Level) : Word := if v = .high then 0xFFFFFFFF else 0x00000000

theorem getLsbD_stuckByte (v : Level) (i : Fin 8) : (stuckByte v).getLsbD i.val = bit v := by
  cases v <;> revert i <;> decide

theorem wordOf_stuckByte (v : Level) : wordOf (stuckByte v) (stuckByte v) (stuckByte v) (stuckByte v) = stuckWord v := by
  cases v <;> rfl

theorem received_stuckAt {v : Level} {tr : List Event} {out received : Byte}
    (h : follows (stuckAt v) tr (byteEvents out received) = true) : received = stuckByte v :=
  BitVec.eq_of_getLsbD_eq fun i hi =>
    (received_of_answersBits (stuckAt_answersBits v) h ⟨i, hi⟩).trans (getLsbD_stuckByte v ⟨i, hi⟩).symm

theorem result_stuckAt {v : Level} {tr : List Event} {c : Byte} {p : Word} {stat : Byte} {result : Word}
    (h : follows (stuckAt v) tr (frameEvents c p stat result) = true) : result = stuckWord v := by
  simp only [frameEvents, follows_append, Bool.and_eq_true] at h
  obtain ⟨⟨⟨⟨⟨-, h1⟩, h2⟩, h3⟩, h4⟩, -⟩ := h
  rw [← wordOf_extracts result, received_stuckAt h1, received_stuckAt h2, received_stuckAt h3, received_stuckAt h4,
    wordOf_stuckByte]

theorem xfer_stuckAt {s : State} (h : s.Ready) (v : Level) (b : Byte) :
    ∃ t, exec (.xfer b) s = .next t ∧ t.fault = [] ∧
      ∀ es, t.trace = s.trace ++ es → follows (stuckAt v) s.trace es = true →
        t.trace.getLast? = some (.ret .xfer (.byte (stuckByte v))) := by
  obtain ⟨r, e, -⟩ := exec_xfer_ready h b
  refine ⟨_, e, h.running, fun es appended answered => ?_⟩
  obtain rfl := received_stuckAt (follows_lineEvents appended answered)
  exact getLast?_ret ..

theorem transactInstr_stuckAt {s : State} (h : s.Ready) (v : Level) (tr : Transaction) :
    ∃ t, exec (transactInstr tr) s = .next t ∧ t.fault = [] ∧
      ∀ es, t.trace = s.trace ++ es → follows (stuckAt v) s.trace es = true →
        t.trace.getLast? = some (.ret tr.name (.word (stuckWord v))) := by
  obtain ⟨stat, result, e, -⟩ := exec_transactInstr_ready h tr
  refine ⟨_, e, h.running, fun es appended answered => ?_⟩
  obtain rfl := result_stuckAt (follows_lineEvents appended answered)
  exact getLast?_ret ..

/-- Settles O50: XFER and both forms of TRANSACT, every bit received being the line's. -/
theorem stuckLineReadsConstant : Obligations.StuckLineReadsConstant := fun v _ h =>
  ⟨xfer_stuckAt h v, fun a p => transactInstr_stuckAt h v ⟨a, p, false⟩,
    fun a p => transactInstr_stuckAt h v ⟨a, p, true⟩⟩

end Sys2Proof.Machine
end

section
/-! PROOF. TRANSACT completes (`42_transaction_framer.md` R127 to R131): the frame it runs, the levels it samples, and the
accumulator that forgets what ACC held (R132). -/

namespace Sys2Proof.Machine

/-! ### The accumulator (R132) -/

/-- Settles O21: the word accumulated is made of the four bytes alone. -/
theorem accumulatorForgetsItsStart : Obligations.AccumulatorForgetsItsStart := by
  intro acc r1 r2 r3 r4
  simp only [accumulate_all]
  exact wordOf_bytes r1 r2 r3 r4

/-! ### Completion -/

/-- Settles O25: TRANSACT's positions performed, where its entry check passes, with read flag 0. -/
theorem transactWriteCompletes : Obligations.TransactWriteCompletes := by
  intro s a p h
  obtain ⟨stat, result, e, -⟩ := exec_transactInstr_ready h ⟨a, p, false⟩
  rw [afterTransact, commandByte_eq_append] at e
  exact ⟨stat, result, e⟩

/-- Settles O26: the same positions, with read flag 1. -/
theorem transactReadCompletes : Obligations.TransactReadCompletes := by
  intro s a p h
  obtain ⟨stat, result, e, -⟩ := exec_transactInstr_ready h ⟨a, p, true⟩
  rw [afterTransact, commandByte_eq_append] at e
  exact ⟨stat, result, e⟩

/-! ### Levels the environment has fixed -/

/-- The high part of a value is sampled first (R53). -/
theorem wireLevels_append {n m : Nat} (x : BitVec n) (y : BitVec m) :
    wireLevels (x ++ y) = wireLevels x ++ wireLevels y := by
  simp only [wireLevels, wireBits_append, List.map_append]

/-- In both forms of TRANSACT the first eight levels fixed are STAT and the next 32 the result (R130, R131). -/
theorem transactInstr_samples {s : State} (h : s.Ready) (tr : Transaction) {stat : Byte} {r : Word} {rest : List Level}
    (fixed : s.dataIn = wireLevels stat ++ wireLevels r ++ rest) :
    ∃ t, exec (transactInstr tr) s = .next t ∧ t.dataIn = rest ∧ t.stat = .val stat ∧
      t.trace.getLast? = some (.ret tr.name (.word r)) := by
  obtain ⟨sampledStat, result, e, samples⟩ := exec_transactInstr_ready h tr
  rw [← wireLevels_append] at fixed
  obtain ⟨rfl, rfl⟩ := append_eq_append_iff.1 (eq_of_samples fixed samples)
  refine ⟨_, e, ?_, rfl, getLast?_ret ..⟩
  show s.dataIn.drop 40 = rest
  rw [fixed, List.drop_left' (length_wireLevels (sampledStat ++ result))]

/-- Settles O30: both forms of TRANSACT, by the 40 samples as one value. -/
theorem transactReturnsTheSamples : Obligations.TransactReturnsTheSamples := fun _ a p _ _ _ h fixed =>
  ⟨transactInstr_samples h ⟨a, p, false⟩ fixed, transactInstr_samples h ⟨a, p, true⟩ fixed⟩

end Sys2Proof.Machine
end

section
/-! PROOF. The events of a TRANSACT: their counts (`42_transaction_framer.md` R136) and what stands at the two ends of the
frame (R134, R135). -/

namespace Sys2Proof.Machine

/-! ### Counts (R136) -/

/-- The 240 events of a TRANSACT between its two writes of SELECT: the command byte's shift and the payload bytes' (R127). -/
def frameByteEvents (cmd : Byte) (payload : Word) (stat : Byte) (result : Word) : List Event :=
  byteEvents cmd stat ++
  byteEvents (payload.extractLsb' 24 8) (result.extractLsb' 24 8) ++
  byteEvents (payload.extractLsb' 16 8) (result.extractLsb' 16 8) ++
  byteEvents (payload.extractLsb' 8 8) (result.extractLsb' 8 8) ++
  byteEvents (payload.extractLsb' 0 8) (result.extractLsb' 0 8)

theorem frameEvents_eq (c : Byte) (p : Word) (stat : Byte) (result : Word) :
    frameEvents c p stat result = [.write .select .low] ++ frameByteEvents c p stat result ++ [.write .select .high] := by
  simp only [frameEvents, frameByteEvents, List.append_assoc]

theorem length_frameByteEvents (c : Byte) (p : Word) (stat : Byte) (result : Word) :
    (frameByteEvents c p stat result).length = 240 := by
  simp only [frameByteEvents, List.length_append, length_byteEvents]

theorem selectWrites_slotEvents (v : Level) (b : Bool) (w : Level) :
    (slotEvents b w).count (.write .select v) = 0 := by
  simp [slotEvents]

theorem selectWrites_byteEvents (v : Level) (out received : Byte) :
    (byteEvents out received).count (.write .select v) = 0 := by
  simp only [byteEvents, List.count_append, selectWrites_slotEvents]

/-- SELECT stays as it is inside a frame (R133). -/
theorem selectWrites_frameByteEvents (v : Level) (c : Byte) (p : Word) (stat : Byte) (result : Word) :
    (frameByteEvents c p stat result).count (.write .select v) = 0 := by
  simp only [frameByteEvents, List.count_append, selectWrites_byteEvents]

theorem dataOutWrites_frameByteEvents (c : Byte) (p : Word) (stat : Byte) (result : Word) :
    (frameByteEvents c p stat result).countP Event.isDataOutWrite = 40 := by
  simp only [frameByteEvents, List.countP_append, dataOutWrites_byteEvents]

theorem clockWrites_frameByteEvents (c : Byte) (p : Word) (stat : Byte) (result : Word) :
    (frameByteEvents c p stat result).filter Event.isClockWrite =
      (List.replicate 40 [.write .clock .low, .write .clock .high]).flatten := by
  simp only [frameByteEvents, List.filter_append, clockWrites_byteEvents]
  rfl

theorem readCount_frameByteEvents (c : Byte) (p : Word) (stat : Byte) (result : Word) :
    readCount (frameByteEvents c p stat result) = 40 := by
  simp only [frameByteEvents, readCount_append, readCount_byteEvents]

theorem delays_frameByteEvents (c : Byte) (p : Word) (stat : Byte) (result : Word) :
    (frameByteEvents c p stat result).count (.delay .tSettle) = 80 := by
  simp only [frameByteEvents, List.count_append, delays_byteEvents]

/-- Settles O41: between its two writes of SELECT, a TRANSACT is five byte shifts. -/
theorem transactEventCounts : Obligations.TransactEventCounts := by
  intro a p s t h
  have completed : ∃ isRead, transact isRead a p s = .next t := h.elim (⟨false, ·⟩) (⟨true, ·⟩)
  obtain ⟨isRead, h⟩ := completed
  obtain ⟨tr, stat, result, o, rfl⟩ := transact_leaves h
  refine ⟨.transact tr, tr.name, .word result,
    frameByteEvents (commandByte tr.isRead tr.address) tr.payload stat result, ?_, length_frameByteEvents ..,
    selectWrites_frameByteEvents .., selectWrites_frameByteEvents .., dataOutWrites_frameByteEvents ..,
    clockWrites_frameByteEvents .., readCount_frameByteEvents .., delays_frameByteEvents ..⟩
  simp [State.withOverlaps, afterTransact, frameEvents_eq]

/-! ### The ends of a frame (R134, R135) -/

/-- A byte shift starts with bit 7, up to its active edge. -/
theorem byteEvents_start (out received : Byte) :
    ∃ rest, byteEvents out received = slotUntilEdge (out.getLsbD 7) ++ rest := by
  simp only [byteEvents, List.append_assoc]
  exact ⟨_, rfl⟩

/-- A byte shift ends with the last inactive edge. -/
theorem byteEvents_end (out received : Byte) : ∃ front, byteEvents out received = front ++ [.write .clock .high] := by
  have slot (es : List Event) (b : Bool) (v : Level) :
      es ++ slotEvents b v = es ++ (slotEvents b v).dropLast ++ [.write .clock .high] := by
    simp [slotEvents]
  exact ⟨_, slot ..⟩

/-- Between SELECT and the command byte's first active edge there are DATA_OUT at its bit 7 and one settle interval; between
the last inactive edge and SELECT there is nothing. -/
theorem frameEvents_edges (c : Byte) (p : Word) (stat : Byte) (result : Word) :
    ∃ es, frameEvents c p stat result =
      [.write .select .low] ++ slotUntilEdge (c.getLsbD 7) ++ es ++ [.write .clock .high, .write .select .high] := by
  obtain ⟨rest, start⟩ := byteEvents_start c stat
  obtain ⟨front, finish⟩ := byteEvents_end (p.extractLsb' 0 8) (result.extractLsb' 0 8)
  refine ⟨rest ++ byteEvents (p.extractLsb' 24 8) (result.extractLsb' 24 8) ++
    byteEvents (p.extractLsb' 16 8) (result.extractLsb' 16 8) ++
    byteEvents (p.extractLsb' 8 8) (result.extractLsb' 8 8) ++ front, ?_⟩
  rw [frameEvents, start, finish]
  simp only [List.append_assoc, List.cons_append, List.nil_append]

/-- A TRANSACT's events from its Call to the first active edge, where DATA_OUT is the read flag, and from the last inactive
edge to its Return. -/
theorem transactInstr_edges {tr : Transaction} {s t : State} (h : exec (transactInstr tr) s = .next t) :
    ∃ es v, t.trace = s.trace ++ ([.call (.transact tr), .write .select .low] ++ slotUntilEdge tr.isRead) ++ es ++
      [.write .clock .high, .write .select .high, .ret tr.name v] := by
  obtain ⟨stat, result, o, rfl⟩ := exec_transactInstr_next h
  have flag : (commandByte tr.isRead tr.address).getLsbD 7 = tr.isRead := (commandByteFields _ _).2.1
  obtain ⟨es, edges⟩ := frameEvents_edges (commandByte tr.isRead tr.address) tr.payload stat result
  rw [flag] at edges
  refine ⟨es, .word result, ?_⟩
  simp only [State.withOverlaps, afterTransact, edges, List.append_assoc, List.cons_append, List.nil_append]

/-- Settles O45: both forms of TRANSACT, the read flag driving DATA_OUT first. -/
theorem selectEdges : Obligations.SelectEdges :=
  ⟨fun a p _ _ => transactInstr_edges (tr := ⟨a, p, false⟩), fun a p _ _ => transactInstr_edges (tr := ⟨a, p, true⟩)⟩

end Sys2Proof.Machine
end

section
/-! PROOF. TRANSACT against a register store (`42_transaction_framer.md` R139): a whole write frame stores its payload, and
each bit received in the payload slots of a read frame is the stored register's. -/

namespace Sys2Proof.Machine

/-! ### Wire order read back -/

theorem ofWireBits_concat (n : Nat) (bs : List Bool) (b : Bool) :
    ofWireBits n (bs ++ [b]) = (ofWireBits n bs <<< 1) ||| (if b then 1 else 0) := by
  simp only [ofWireBits, List.foldl_append, List.foldl_cons, List.foldl_nil]

/-- Bit i is the i-th from the last sent. -/
theorem getLsbD_ofWireBits {n : Nat} (bs : List Bool) : ∀ {i : Nat}, i < n →
    (ofWireBits n bs).getLsbD i = bs.reverse[i]?.getD false := by
  induction bs using List.reverseRecOn with
  | nil => intro i _; simp [ofWireBits]
  | append_singleton bs b ih =>
    intro i hi
    rw [ofWireBits_concat, BitVec.getLsbD_or, BitVec.getLsbD_shiftLeft, List.reverse_append]
    cases i with
    | zero => cases b <;> simp [hi]
    | succ i => cases b <;> simp [hi, ih (Nat.lt_of_succ_lt hi)]

/-- A value's bits in wire order are the value. -/
theorem ofWireBits_wireBits {n : Nat} (v : BitVec n) : ofWireBits n (wireBits v) = v := by
  refine BitVec.eq_of_getLsbD_eq fun i hi => ?_
  rw [getLsbD_ofWireBits _ hi, List.getElem?_reverse (by simpa [wireBits] using hi)]
  have place : n - 1 - (n - 1 - i) = i := by omega
  have within : n - 1 - i < n := by omega
  simp [wireBits, place, within]

@[simp] theorem length_wireBits {n : Nat} (v : BitVec n) : (wireBits v).length = n := by simp [wireBits]

/-! ### The registers stored -/

/-- The fields of the 40 bits of a frame, read back (R55, R71). -/
theorem frame_fields {w : BitVec 40} {isRead : Bool} {a : Addr7} {p : Word} (h : w = BitVec.ofBool isRead ++ a ++ p) :
    w.getLsbD 39 = isRead ∧ w.extractLsb' 32 7 = a ∧ w.extractLsb' 0 32 = p := by
  have parts : BitVec.ofBool (w.getLsbD 39) ++ w.extractLsb' 32 7 ++ w.extractLsb' 0 32 = w := by
    rw [← extractLsb'_one, BitVec.extractLsb'_append_extractLsb'_eq_extractLsb' (by rfl),
      BitVec.extractLsb'_append_extractLsb'_eq_extractLsb' (by rfl)]
    exact BitVec.extractLsb'_eq_self
  obtain ⟨command, payload⟩ := append_eq_append_iff.1 (parts.trans h)
  obtain ⟨flag, address⟩ := append_eq_append_iff.1 command
  exact ⟨ofBool_inj.1 flag, address, payload⟩

/-- A whole write frame stores its payload at its address. -/
theorem storeAfter_write (store : List (Addr7 × Word)) (frames : List (List Bool)) (a : Addr7) (p : Word) :
    storeAfter store (frames ++ [wireBits (0#1 ++ a) ++ wireBits p]) = (a, p) :: storeAfter store frames := by
  have value : ofWireBits 40 (wireBits (0#1 ++ a) ++ wireBits p) = BitVec.ofBool false ++ a ++ p := by
    rw [← wireBits_append]
    exact ofWireBits_wireBits _
  obtain ⟨flag, address, payload⟩ := frame_fields value
  have whole : (wireBits (0#1 ++ a) ++ wireBits p).length = 40 := by simp
  rw [storeAfter, List.foldl_append]
  simp only [List.foldl_cons, List.foldl_nil, flag, address, payload, whole, and_self, if_true]
  rfl

/-- The register stored last is the one read. -/
theorem readStore_stored (store : List (Addr7 × Word)) (a : Addr7) (p : Word) : readStore ((a, p) :: store) a = p := by
  simp [readStore]

/-! ### What a device answers in a frame -/

/-- What a device has latched is what the events before left, latched further. -/
theorem latched_append (tr es : List Event) : latched (tr ++ es) = es.foldl latchEvent (latched tr) := List.foldl_append

theorem latch_slotUntilEdge_sent {d : Latched} (h : d.inFrame = true) (bs : List Bool) (last b : Bool) :
    (slotUntilEdge b).foldl latchEvent (d.sent bs last) = d.sent (bs ++ [b]) b := by
  simp [slotUntilEdge, latchEvent, h, Held.read, Latched.sent]

/-- Bit i received in a frame is the answer of a device that has latched the bits sent before it and then bit i. -/
theorem received_of_latched {o : Oracle} {f : Latched → Level} (ho : ∀ tr, o tr = f (latched tr)) {tr : List Event}
    {d : Latched} {bs : List Bool} {last : Bool} (hd : d.inFrame = true) (htr : latched tr = d.sent bs last)
    {out received : Byte} (h : follows o tr (byteEvents out received) = true) (i : Fin 8) :
    level (received.getLsbD i.val) = f (d.sent (bs ++ (wireBits out).take (8 - i.val)) (out.getLsbD i.val)) := by
  simp only [byteEvents, follows_append, follows_slotEvents, Bool.and_eq_true, beq_iff_eq, ho, latched_append,
    List.foldl_append, htr, latch_slotEvents_sent hd, latch_slotUntilEdge_sent hd] at h
  simp only [List.append_assoc] at h
  obtain ⟨⟨⟨⟨⟨⟨⟨h7, h6⟩, h5⟩, h4⟩, h3⟩, h2⟩, h1⟩, h0⟩ := h
  fin_cases i
  exacts [h0, h1, h2, h3, h4, h5, h6, h7]

/-! ### What a register store answers in a read frame -/

/-- The register store's answer, by what it has latched. -/
def registerAnswer (store : List (Addr7 × Word)) (d : Latched) : Level :=
  if d.inFrame ∧ 8 ≤ d.bits.length - 1 ∧ d.bits.headD false then
    level ((readStore (storeAfter store d.frames) (ofWireBits 7 ((d.bits.drop 1).take 7))).getLsbD
      (39 - (d.bits.length - 1)))
  else .low

theorem regStore_eq_registerAnswer (store : List (Addr7 × Word)) (tr : List Event) :
    regStore store tr = registerAnswer store (latched tr) := rfl

/-- After the command byte of a read frame each slot is answered with the addressed register's bit of that slot. -/
theorem registerAnswer_sent (store : List (Addr7 × Word)) {d : Latched} (hd : d.inFrame = true) (hb : d.bits = [])
    (a : Addr7) {sent : List Bool} (hs : sent ≠ []) (last : Bool) :
    registerAnswer store (d.sent (wireBits (1#1 ++ a) ++ sent) last) =
      level ((readStore (storeAfter store d.frames) a).getLsbD (32 - sent.length)) := by
  have bits : (d.sent (wireBits (1#1 ++ a) ++ sent) last).bits = true :: (wireBits a ++ sent) := by
    simp only [Latched.sent, hb, wireBits_append]
    rfl
  have address : (wireBits a ++ sent).take 7 = wireBits a := List.take_left' (length_wireBits a)
  have some_sent : 0 < sent.length := List.length_pos_iff.2 hs
  have slot : 39 - (wireBits a ++ sent).length = 32 - sent.length := by
    rw [List.length_append, length_wireBits]; omega
  have payload : 8 ≤ (wireBits a ++ sent).length := by
    rw [List.length_append, length_wireBits]; omega
  rw [registerAnswer, bits]
  simp only [List.length_cons, Nat.add_sub_cancel, List.headD_cons, List.drop_one, List.tail_cons, address,
    ofWireBits_wireBits, slot, payload]
  rw [if_pos ⟨hd, trivial, trivial⟩]
  rfl

/-- A byte received after `done` payload bits of a read frame is the addressed register's next byte. -/
theorem received_register {store : List (Addr7 × Word)} {tr : List Event} {d : Latched} (hd : d.inFrame = true)
    (hb : d.bits = []) {a : Addr7} {done : List Bool} {last : Bool}
    (htr : latched tr = d.sent (wireBits (1#1 ++ a) ++ done) last) {out received : Byte} {start : Nat}
    (hstart : done.length + start = 24) (h : follows (regStore store) tr (byteEvents out received) = true) :
    received = (readStore (storeAfter store d.frames) a).extractLsb' start 8 := by
  refine BitVec.eq_of_getLsbD_eq fun i hi => ?_
  have answer := received_of_latched (regStore_eq_registerAnswer store) hd htr h ⟨i, hi⟩
  have sent_length : (done ++ (wireBits out).take (8 - i)).length = done.length + (8 - i) := by
    rw [List.length_append, List.length_take, length_wireBits]; omega
  have place : 32 - (done ++ (wireBits out).take (8 - i)).length = start + i := by omega
  have some_sent : done ++ (wireBits out).take (8 - i) ≠ [] := List.ne_nil_of_length_pos (by omega)
  rw [List.append_assoc, registerAnswer_sent store hd hb a some_sent, place] at answer
  have bits := congrArg bit answer
  rw [bit_level, bit_level] at bits
  rw [bits, BitVec.getLsbD_extractLsb']
  simp [hi]

/-- A byte shift in a frame is latched after the bits sent before it. -/
theorem latched_byteEvents {d : Latched} (hd : d.inFrame = true) {tr : List Event} {bs done : List Bool} {last : Bool}
    (htr : latched tr = d.sent (bs ++ done) last) (out received : Byte) :
    latched (tr ++ byteEvents out received) = d.sent (bs ++ (done ++ wireBits out)) (out.getLsbD 0) := by
  rw [latched_append, htr, latch_byteEvents_sent hd, List.append_assoc]

/-- A read frame answered by a register store receives the addressed register, whatever payload it sends. -/
theorem result_regStore {store : List (Addr7 × Word)} {tr : List Event} {a : Addr7} {p : Word} {stat : Byte}
    {result : Word} (h : follows (regStore store) tr (frameEvents (1#1 ++ a) p stat result) = true) :
    result = readStore (storeAfter store (latched tr).frames) a := by
  simp only [frameEvents, follows_append, Bool.and_eq_true, ← List.append_assoc] at h
  obtain ⟨⟨⟨⟨⟨-, h1⟩, h2⟩, h3⟩, h4⟩, -⟩ := h
  have opened : (latchEvent (latched tr) (.write .select .low)).inFrame = true := rfl
  have l1 : latched (tr ++ [.write .select .low] ++ byteEvents (1#1 ++ a) stat) =
      (latchEvent (latched tr) (.write .select .low)).sent (wireBits (1#1 ++ a) ++ []) ((1#1 ++ a : Byte).getLsbD 0) := by
    rw [latched_append, latched_append, List.append_nil]
    exact latch_byteEvents opened ..
  have l2 := latched_byteEvents opened l1 (p.extractLsb' 24 8) (result.extractLsb' 24 8)
  have l3 := latched_byteEvents opened l2 (p.extractLsb' 16 8) (result.extractLsb' 16 8)
  have l4 := latched_byteEvents opened l3 (p.extractLsb' 8 8) (result.extractLsb' 8 8)
  have r1 := received_register opened rfl l1 (start := 24) (by simp) h1
  have r2 := received_register opened rfl l2 (start := 16) (by simp) h2
  have r3 := received_register opened rfl l3 (start := 8) (by simp) h3
  have r4 := received_register opened rfl l4 (start := 0) (by simp) h4
  rw [← wordOf_extracts result, r1, r2, r3, r4]
  exact wordOf_extracts _

/-- Settles O51: the write's frame is the last the store has taken, and the read's answers are that register's bits. -/
theorem writeThenReadReturnsTheValue : Obligations.WriteThenReadReturnsTheValue := by
  intro store a p s t u es write read appended answered
  obtain ⟨-, frames⟩ := latched_exec_transactInstr (tr := ⟨a, p, false⟩) write
  obtain ⟨stat, result, o, rfl⟩ := exec_transactInstr_next (tr := ⟨a, 0, true⟩) read
  have received := follows_lineEvents appended answered
  rw [commandByte_eq_append] at received
  have called : (latched (t.trace ++ [.call (.transact ⟨a, 0, true⟩)])).frames = (latched t.trace).frames := by
    rw [latched_append]
    rfl
  obtain rfl : result = p := by
    rw [result_regStore received, called, frames]
    exact (congrArg (readStore · a) (storeAfter_write ..)).trans (readStore_stored ..)
  exact getLast?_ret ..

end Sys2Proof.Machine
end

section
/-! PROOF. What keeps an operation from starting or going on (`60_exceptions.md` R152 to R158): the entry check, a second
agent's call that is due, and what every stop keeps. -/

namespace Sys2Proof.Machine

/-! ### The entry check and the wait for the host -/

/-- Settles O10: the fetch finds nothing to issue and no fault. -/
theorem stepWaitsForTheHost : Obligations.StepWaitsForTheHost := by
  intro s hq hp hf
  simp [step, nextInstr, hq, fetchHost, hp, State.isStopped, hf]

/-- A BBT that is not stopped has only the reason raised (R36, R152). -/
theorem raiseFault_running {s : State} (h : s.fault = []) (r : FaultReason) :
    raiseFault r s = { s with fault := [r] } := by
  simp [raiseFault, h]

/-- An operation that may run before INIT has completed is INIT (R155). -/
theorem needsInit_iff {op : HostOp} : op.needsInit = true ↔ op ≠ .init := by
  cases op <;> simp [HostOp.needsInit]

/-- A fault of the entry check is the operation's outcome. -/
theorem issue_fault {op : HostOp} {s : State} {f : Fault} (h : entryCheck op s = some f) : issue op s = .fault f := by
  rw [issue, h]

/-- Settles O14: the entry check's four answers, in its order. -/
theorem entryCheckOrder : Obligations.EntryCheckOrder := by
  intro i op s hop
  rw [exec_of_hostOp hop]
  refine ⟨fun hf => issue_stopped hf op, fun hf hq => ?_, fun hf hq hn hi => ?_, fun hf hq h => ?_⟩
  · rw [issue_fault (entryCheck_busy op hf hq), raiseFault_running hf]
  · rw [issue_fault (entryCheck_uninit hf hq (needsInit_iff.2 hn) hi), raiseFault_running hf]
  · have passes : entryCheck op s = none := entryCheck_passes hf hq fun hn => h.resolve_left (needsInit_iff.1 hn)
    exact ⟨passes, fun ho => ⟨_, issue_alone passes ho⟩⟩

/-! ### A second agent's call -/

/-- The outcome of a call that lands in a state whose operation is in progress (R152, R156). -/
def raiseReentrant (op : HostOp) (s : State) : Result :=
  .fault (.reentrant op s.seq (raiseFault (.reentrant op s.seq) s))

theorem raiseReentrant_running {s : State} (h : s.fault = []) (op : HostOp) :
    raiseReentrant op s = .fault (.reentrant op s.seq { s with fault := [.reentrant op s.seq] }) := by
  rw [raiseReentrant, raiseFault_running h]

theorem overlapOutcome_rejected {w : Hcw} {why : Reject} (h : decodeHcw w = .reject why) (s : State) :
    overlapOutcome w s = some (refuseWord why w s) := by
  simp only [overlapOutcome, h]

/-- A word that spells an operation meets the entry check (R154, R156). -/
theorem overlapOutcome_decoded {w : Hcw} {i : Instr} {op : HostOp} (h : decodeHcw w = .instr i)
    (hop : hostOpOf i = some op) (s : State) : overlapOutcome w s = (entryCheck op s).map .fault := by
  simp only [overlapOutcome, h, hop]

/-- A due call that spells an operation raises `Reentrant` where BBT is not stopped. -/
theorem landing_reentrant {s : State} {w : Hcw} {rest : List Overlap} {i : Instr} {op : HostOp} (hf : s.fault = [])
    (hq : s.seq ≠ .idle) (ho : s.overlaps = { after := 0, word := w } :: rest) (hd : decodeHcw w = .instr i)
    (hop : hostOpOf i = some op) : landing s = some (raiseReentrant op (s.withOverlaps rest)) := by
  rw [landing_due hq ho, overlapOutcome_decoded hd hop, entryCheck_busy op (s := { s with overlaps := rest }) hf hq]
  rfl

/-- Settles O58: the call lands, and its word meets the decoder and then the entry check. -/
theorem dueCallOutcome : Obligations.DueCallOutcome := by
  intro s w rest hq ho
  refine ⟨fun why hd => ?_, fun i op hd hop => ⟨fun hf => ?_, fun hf => ?_⟩⟩
  · exact step_of_landing hq ((landing_due hq ho).trans (overlapOutcome_rejected hd _))
  · refine step_of_landing hq ?_
    rw [landing_due hq ho, overlapOutcome_decoded hd hop, entryCheck_stopped op (s := { s with overlaps := rest }) hf]
    rfl
  · exact (step_of_landing hq (landing_reentrant hf hq ho hd hop)).trans
      (raiseReentrant_running (s := s.withOverlaps rest) hf op)

/-! ### What a stop keeps -/

/-- Settles O55: the invariant is kept by every stop too. -/
theorem stopKeepsInvariant : Obligations.StopKeepsInvariant := by
  intro s h
  have kept := inv_kept.step h
  refine ⟨fun f hs => ?_, fun r t hs hr => ?_⟩ <;> rw [hs] at kept
  · exact kept
  · exact kept t hr

end Sys2Proof.Machine
end

section
/-! PROOF. A second agent's call stops the operation in progress where it stands (`60_exceptions.md` R153, R156): the
positions up to the call are performed, each with its one event, and the rest are not. -/

namespace Sys2Proof.Machine

/-! ### The first positions of an operation -/

/-- What every position leaves alone is left alone by all of them. -/
theorem performAll_unchanged {α : Type} {f : State → α} (h : ∀ p s, f (perform p s) = f s) (ps : List Seq) :
    ∀ s, f (performAll ps s) = f s := by
  induction ps with
  | nil => intro s; rfl
  | cons p ps ih => intro s; rw [performAll_cons, ih, h]

@[simp] theorem act_program (p : Seq) (s : State) : (act p s).program = s.program := by
  cases p with
  | idle => rfl
  | init k => fin_cases k <;> rfl
  | xfer b i st => cases st <;> simp only [act, shiftStep] <;> split <;> rfl
  | transact t pos =>
    cases pos with
    | selAssert => rfl
    | selDeassert => rfl
    | byte j i st => cases st <;> simp only [act, frameStep, shiftStep, storeByte] <;> (repeat' split) <;> rfl

@[simp] theorem complete_program (s : State) : (complete s).program = s.program := by
  unfold complete; split <;> rfl

/-- No position touches what the host has still to issue. -/
@[simp] theorem perform_program (p : Seq) (s : State) : (perform p s).program = s.program := by
  unfold perform; split <;> simp

theorem performAll_trace (ps : List Seq) : ∀ s, s.trace <+: (performAll ps s).trace := by
  induction ps with
  | nil => intro s; exact List.prefix_rfl
  | cons p ps ih => intro s; exact (perform_trace p s).trans (ih _)

/-- Every step of a bit slot appends one event (R22, R110). -/
theorem length_shiftStep_trace (b : Byte) (i : Fin 8) (st : SlotStep) (s : State) :
    (shiftStep b i st s).trace.length = s.trace.length + 1 := by
  have one : ∀ s' : State, s'.trace = s.trace → (shiftBit i st s').trace.length = s.trace.length + 1 := by
    intro s' h
    rw [← h]
    cases st <;> simp [shiftBit, lineWrite, delayUs, clkActive, clkInactive]
  unfold shiftStep
  split <;> exact one _ rfl

/-- Every position performs one line primitive, which appends one event (R22). -/
theorem length_act_trace {p : Seq} (hp : p ≠ .idle) (s : State) : (act p s).trace.length = s.trace.length + 1 := by
  cases p with
  | idle => exact absurd rfl hp
  | init k => fin_cases k <;> exact List.length_append
  | xfer b i st => exact length_shiftStep_trace b i st s
  | transact t pos =>
    cases pos with
    | selAssert => exact List.length_append
    | byte j i st =>
      rw [act, frameStep]
      split
      · rw [storeByte_trace]; exact length_shiftStep_trace _ i st s
      · exact length_shiftStep_trace _ i st s
    | selDeassert => exact List.length_append

theorem ne_idle_of_next {p : Seq} (h : p.next ≠ none) : p ≠ .idle := by
  rintro rfl
  exact h rfl

/-- A position that is not an operation's last leaves SEQ there, with one event more. -/
theorem perform_notLast {p : Seq} (h : p.next ≠ none) (s : State) :
    (perform p s).seq = p ∧ (perform p s).trace.length = s.trace.length + 1 := by
  obtain ⟨q, hq⟩ := Option.ne_none_iff_exists'.1 h
  exact ⟨perform_seq_of_next hq s, perform_of_next hq s ▸ length_act_trace (ne_idle_of_next h) _⟩

theorem length_performAll_trace {ps : List Seq} : (∀ p ∈ ps, p.next ≠ none) → ∀ s,
    (performAll ps s).trace.length = s.trace.length + ps.length := by
  induction ps with
  | nil => intro _ s; rfl
  | cons p ps ih =>
    intro h s
    obtain ⟨hp, hps⟩ := List.forall_mem_cons.1 h
    rw [performAll_cons, ih hps, (perform_notLast hp s).2, List.length_cons]
    omega

/-- Of an operation's positions only the last has none after it (R35). -/
theorem next_of_mem_take {op : HostOp} {m : Nat} (hm : m < op.positions.length) :
    ∀ p ∈ op.positions.take m, p.next ≠ none := by
  obtain ⟨-, follows, -⟩ := positionsInFixedOrder op
  intro p hp
  obtain ⟨k, hk, rfl⟩ := List.mem_take_iff_getElem.1 hp
  have after := follows k
  rw [List.getElem?_eq_getElem (by omega), List.getElem?_eq_getElem (by omega), Option.bind_some] at after
  simp [after]

/-- The first positions of an operation leave SEQ at the last of them. -/
theorem performAll_take_seq {op : HostOp} {k : Nat} {p : Seq} (hk : k + 1 < op.positions.length)
    (hp : op.positions[k]? = some p) (s : State) : (performAll (op.positions.take (k + 1)) s).seq = p := by
  have hn : p.next ≠ none := next_of_mem_take hk p (by simp [List.take_add_one, hp])
  rw [List.take_add_one, hp, performAll_append]
  exact (perform_notLast hn _).1

/-- The events of the first positions are the first events of the whole operation. -/
theorem performAll_take_trace {op : HostOp} {m : Nat} (hm : m < op.positions.length) (s : State) :
    (performAll (op.positions.take m) s).trace = (performAll op.positions s).trace.take (s.trace.length + m) := by
  have grows := performAll_trace (op.positions.drop m) (performAll (op.positions.take m) s)
  rw [← performAll_append, List.take_append_drop] at grows
  rw [List.prefix_iff_eq_take.1 grows, length_performAll_trace (next_of_mem_take hm), List.length_take_of_le hm.le]

/-! ### The start of an operation -/

theorem openCall_withOverlaps (op : HostOp) (s : State) (o : List Overlap) :
    openCall op (s.withOverlaps o) = (openCall op s).withOverlaps o := by
  cases op <;> rfl

theorem length_openCall_trace (op : HostOp) (s : State) : (openCall op s).trace.length = s.trace.length + 1 := by
  cases op <;> exact List.length_append

@[simp] theorem openCall_overlaps (op : HostOp) (s : State) : (openCall op s).overlaps = s.overlaps := by
  cases op <;> rfl

@[simp] theorem openCall_program (op : HostOp) (s : State) : (openCall op s).program = s.program := by
  cases op <;> rfl

@[simp] theorem openCall_refusals (op : HostOp) (s : State) : (openCall op s).refusals = s.refusals := by
  cases op <;> rfl

/-- The entry check reads nothing of the calls still to come. -/
theorem entryCheck_passes_withOverlaps {op : HostOp} {s : State} {o : List Overlap}
    (h : entryCheck op (s.withOverlaps o) = none) : entryCheck op s = none :=
  entryCheck_eq_none.2 (entryCheck_eq_none (s := s.withOverlaps o).1 h)

/-! ### The call lands -/

theorem countdown_cons {s : State} {n : Nat} {w : Hcw} {rest : List Overlap}
    (h : s.overlaps = { after := n, word := w } :: rest) :
    countdown s = s.withOverlaps ({ after := n - 1, word := w } :: rest) := by
  simp only [countdown, h]
  rfl

section
variable {w : Hcw} {i : Instr} {op' : HostOp} {rest : List Overlap} (hd : decodeHcw w = .instr i)
  (hop : hostOpOf i = some op')
include hd hop

/-- A call due after `n` more positions lands after them, and after the first at the earliest; the later ones are not
performed (R153). -/
theorem runSeq_reentrant {ps : List Seq} : ∀ {n : Nat} {s : State}, s.fault = [] → landing s = none →
    s.overlaps = { after := n, word := w } :: rest → max 1 n < ps.length →
    (∀ p ∈ ps.take (max 1 n), p.next ≠ none) →
    runSeq ps s = raiseReentrant op' ((performAll (ps.take (max 1 n)) s).withOverlaps rest) := by
  induction ps with
  | nil => intro n s _ _ _ hm; cases hm
  | cons p ps ih =>
    intro n s hf hl ho hm hn
    obtain ⟨k, hk, hleft⟩ : ∃ k, max 1 n = k + 1 ∧ n - 1 = k := ⟨n - 1, by omega, rfl⟩
    rw [hk, List.take_succ_cons] at hn
    obtain ⟨hp, hps⟩ := List.forall_mem_cons.1 hn
    rw [hk, List.length_cons] at hm
    have moved : perform p (countdown s) = (perform p s).withOverlaps ({ after := k, word := w } :: rest) := by
      rw [countdown_cons ho, perform_withOverlaps, hleft]
    have running : (perform p s).fault = [] := (perform_fault p s).trans hf
    have busy : (perform p s).seq ≠ .idle := by
      rw [(perform_notLast hp s).1]
      exact ne_idle_of_next hp
    rw [runSeq, hl, hk, List.take_succ_cons, performAll_cons]
    dsimp only
    rw [moved]
    cases k with
    | zero =>
      obtain ⟨q, qs, rfl⟩ := List.exists_cons_of_length_pos (Nat.lt_of_succ_lt_succ hm)
      have lands := landing_reentrant (s := (perform p s).withOverlaps ({ after := 0, word := w } :: rest)) running busy
        rfl hd hop
      rw [runSeq, lands]
      rfl
    | succ k =>
      have further : max 1 (k + 1) = k + 1 := by omega
      have later := ih (n := k + 1) (s := (perform p s).withOverlaps ({ after := k + 1, word := w } :: rest)) running
        (landing_not_due (.inr (by simp [State.withOverlaps]))) rfl
      rw [further] at later
      rw [later (Nat.lt_of_succ_lt_succ hm) hps, performAll_withOverlaps, withOverlaps_withOverlaps]

/-- The first position is performed with the issue, so no call lands before it (log entry 9). -/
theorem issue_reentrant {op : HostOp} {s : State} {n : Nat} (he : entryCheck op s = none)
    (ho : s.overlaps = { after := n, word := w } :: rest) (hm : max 1 n < op.positions.length) :
    issue op s =
      raiseReentrant op' ((performAll (op.positions.take (max 1 n)) (openCall op s)).withOverlaps rest) := by
  obtain ⟨hf, hq, -⟩ := entryCheck_eq_none.1 he
  rw [issue_eq_runSeq he]
  exact runSeq_reentrant hd hop ((openCall_fault op s).trans hf) (landing_idle ((openCall_seq op s).trans hq))
    ((openCall_overlaps op s).trans ho) hm (next_of_mem_take hm)

end

/-- Settles O16: the first `m` positions are performed as in the run nobody interrupts, and the call finds SEQ at the
last of them. -/
theorem overlapStopsTheOperation : Obligations.OverlapStopsTheOperation := by
  intro op op' s t n m w i rest p ho hd hop whole hm hlt hp
  obtain ⟨passes, o, rfl⟩ := issue_next (s := s.withOverlaps []) whole
  have he := entryCheck_passes_withOverlaps passes
  obtain ⟨hf, -, -⟩ := entryCheck_eq_none.1 he
  have stopped := issue_reentrant hd hop he ho (hm ▸ hlt)
  rw [← hm] at stopped
  have hfault : (performAll (op.positions.take m) (openCall op s)).fault = [] := by
    rw [performAll_unchanged perform_fault, openCall_fault, hf]
  have hseq : (performAll (op.positions.take m) (openCall op s)).seq = p := by
    obtain ⟨k, rfl⟩ : ∃ k, m = k + 1 := ⟨m - 1, by omega⟩
    exact performAll_take_seq hlt hp _
  have htrace := performAll_take_trace hlt (openCall op s)
  rw [length_openCall_trace] at htrace
  rw [raiseReentrant_running (s := State.withOverlaps _ rest) hfault,
    show (State.withOverlaps _ rest).seq = p from hseq] at stopped
  refine ⟨_, stopped, rfl, rfl, rfl, ?_, ?_, ?_⟩
  · rw [openCall_withOverlaps, performAll_withOverlaps]
    exact htrace
  · exact (performAll_unchanged perform_program _ _).trans (openCall_program op s)
  · exact (performAll_unchanged perform_refusals _ _).trans (openCall_refusals op s)

end Sys2Proof.Machine
end

section
/-! PROOF. The events a host operation appends, taken as a whole: how long they last at least, and which kinds they are
(`70_reset_and_hazards.md` R185, R189, R190); and that no instruction leads back to reset (R173). -/

namespace Sys2Proof.Machine

/-! ### No return to reset (R173) -/

/-- Every instruction that answers a next state leaves CLOCK High (R45, R110). -/
theorem exec_clock_high {i : Instr} {s t : State} (h : exec i s = .next t) : t.lines.clock = .val .high := by
  obtain ⟨-, -, o, rfl⟩ | ⟨b, r, o, -, -, rfl⟩ | ⟨tr, stat, result, o, -, -, rfl⟩ |
    ⟨isRead, a, tr, stat, o, -, -, -, -, rfl⟩ := exec_next h
  all_goals rfl

/-- Settles O37: CLOCK is High after every instruction, and nothing has driven it at reset. -/
theorem noReturnToReset : Obligations.NoReturnToReset := by
  rintro i s _ h rfl
  have driven : State.reset.lines.clock = .val .high := exec_clock_high h
  cases driven

/-! ### The line events of an operation -/

/-- The events an operation may append between its Call and its Return, one list for each choice of levels sampled. -/
inductive LineEvents : HostOp → List Event → Prop where
  | init : LineEvents .init initEvents
  | xfer (b received : Byte) : LineEvents (.xfer b) (byteEvents b received)
  | transact (t : Transaction) (stat : Byte) (result : Word) :
      LineEvents (.transact t) (frameEvents (commandByte t.isRead t.address) t.payload stat result)

/-- The events a performed operation has appended. -/
theorem performed_trace (op : HostOp) (s : State) : ∃ es n v, LineEvents op es ∧
    (performAll op.positions (openCall op s)).trace = s.trace ++ operationEvents op es n v := by
  cases op with
  | init => exact ⟨_, _, _, .init, by rw [init_performed]; exact append_operationEvents ..⟩
  | xfer b =>
    obtain ⟨r, e, -⟩ := xfer_performed b s
    exact ⟨_, _, _, .xfer b r, by rw [e]; exact append_operationEvents ..⟩
  | transact t =>
    obtain ⟨stat, result, e, -⟩ := transact_performed t s
    exact ⟨_, _, _, .transact t stat result, by rw [e]; exact append_operationEvents ..⟩

/-- What a host operation that answers a next state has appended, whatever calls of a second agent are still to come. -/
theorem issue_appended {op : HostOp} {s t : State} (h : issue op s = .next t) : ∃ es n v, LineEvents op es ∧
    t.trace.drop s.trace.length = operationEvents op es n v := by
  obtain ⟨-, o, rfl⟩ := issue_next h
  obtain ⟨es, n, v, lines, e⟩ := performed_trace op s
  exact ⟨es, n, v, lines, by rw [State.withOverlaps, e, List.drop_left]⟩

/-! ### Settle intervals (R190) -/

theorem minTime_append (es fs : List Event) : minTime (es ++ fs) = minTime es + minTime fs := by
  simp [minTime]

theorem minTime_slotEvents (b : Bool) (v : Level) : minTime (slotEvents b v) = 2 * Config.tSettle := by
  simp only [minTime, slotEvents, List.map_cons, List.map_nil, Event.minTime, List.sum_cons, List.sum_nil]
  omega

theorem minTime_byteEvents (out received : Byte) : minTime (byteEvents out received) = 16 * Config.tSettle := by
  simp only [byteEvents, minTime_append, minTime_slotEvents]
  omega

theorem minTime_frameEvents (c : Byte) (p : Word) (stat : Byte) (result : Word) :
    minTime (frameEvents c p stat result) = 80 * Config.tSettle := by
  have select (v : Level) : minTime [.write .select v] = 0 := rfl
  simp only [frameEvents, minTime_append, select, minTime_byteEvents]
  omega

/-- The Call and the Return of an operation add nothing to the lower bound. -/
theorem minTime_operationEvents (op : HostOp) (es : List Event) (n : OpName) (v : ReturnValue) :
    minTime (operationEvents op es n v) = minTime es := by
  simp [operationEvents, minTime, Event.minTime]

/-- The settle intervals an operation waits through (R190). -/
def HostOp.settles : HostOp → Nat
  | .init => 0
  | .xfer _ => 16
  | .transact _ => 80

theorem LineEvents.minTime_eq {op : HostOp} {es : List Event} (h : LineEvents op es) :
    minTime es = op.settles * Config.tSettle := by
  cases h with
  | init => exact (Nat.zero_mul _).symm
  | xfer b r => exact minTime_byteEvents b r
  | transact t stat result => exact minTime_frameEvents ..

theorem minTime_issue {op : HostOp} {s t : State} (h : issue op s = .next t) :
    minTime (t.trace.drop s.trace.length) = op.settles * Config.tSettle := by
  obtain ⟨es, n, v, lines, e⟩ := issue_appended h
  rw [e, minTime_operationEvents, lines.minTime_eq]

theorem minTime_transact {isRead : Bool} {a : BitVec 8} {p : Word} {s t : State} (h : transact isRead a p s = .next t) :
    minTime (t.trace.drop s.trace.length) = 80 * Config.tSettle := by
  obtain ⟨a', -, issued⟩ := transact_next h
  exact minTime_issue issued

/-- Settles O46: two delays in each bit slot, eight slots in a byte shift, five byte shifts in a frame. -/
theorem settleTimeBounds : Obligations.SettleTimeBounds :=
  ⟨minTime_slotEvents, fun _ _ => ⟨fun h => (minTime_issue (op := .init) h).trans (Nat.zero_mul _),
    fun b h => minTime_issue (op := .xfer b) h, fun _ _ h => minTime_transact (isRead := false) h,
    fun _ _ h => minTime_transact (isRead := true) h⟩⟩

/-! ### Shapes (R137, R189) -/

theorem shape_slotEvents (b : Bool) (v : Level) : (slotEvents b v).map Event.shape = slotEvents false .low := rfl

/-- The shape of a byte shift: that of the shift which sends and receives zero. -/
theorem shape_byteEvents (out received : Byte) : (byteEvents out received).map Event.shape = byteEvents 0 0 := by
  simp only [byteEvents, List.map_append, shape_slotEvents]
  rfl

theorem shape_frameEvents (c : Byte) (p : Word) (stat : Byte) (result : Word) :
    (frameEvents c p stat result).map Event.shape = frameEvents 0 0 0 0 := by
  simp only [frameEvents, List.map_append, shape_byteEvents]
  rfl

/-- An operation's shape, with the Call and the Return blanked, is that of its line events. -/
theorem shape_operationEvents (op : HostOp) (es : List Event) (n : OpName) (v : ReturnValue) :
    (operationEvents op es n v).map Event.shape = operationEvents .init (es.map Event.shape) .init .none := by
  simp only [operationEvents, List.map_append, List.map_cons, List.map_nil, Event.shape]

/-- The shape of an operation's line events, the same for all operands and all levels sampled. -/
def HostOp.lineShape : HostOp → List Event
  | .init => initEvents
  | .xfer _ => byteEvents 0 0
  | .transact _ => frameEvents 0 0 0 0

theorem LineEvents.shape_eq {op : HostOp} {es : List Event} (h : LineEvents op es) :
    es.map Event.shape = op.lineShape := by
  cases h with
  | init => rfl
  | xfer b r => exact shape_byteEvents b r
  | transact t stat result => exact shape_frameEvents ..

theorem shape_issue {op : HostOp} {s t : State} (h : issue op s = .next t) :
    (t.trace.drop s.trace.length).map Event.shape = operationEvents .init op.lineShape .init .none := by
  obtain ⟨es, n, v, lines, e⟩ := issue_appended h
  rw [e, shape_operationEvents, lines.shape_eq]

theorem shape_transact {a : BitVec 8} {p : Word} {s t : State}
    (h : exec (.transactW a p) s = .next t ∨ exec (.transactR a p) s = .next t) :
    (t.trace.drop s.trace.length).map Event.shape = operationEvents .init (frameEvents 0 0 0 0) .init .none := by
  have completed : ∃ isRead, transact isRead a p s = .next t := h.elim (⟨false, ·⟩) (⟨true, ·⟩)
  obtain ⟨isRead, h⟩ := completed
  obtain ⟨a', -, issued⟩ := transact_next h
  exact shape_issue issued

/-- Settles O48: every XFER has the one shape of a byte shift, and both forms of TRANSACT that of a frame. -/
theorem eventShapeIndependentOfData : Obligations.EventShapeIndependentOfData := fun _ _ _ _ =>
  ⟨fun b b' h h' => (shape_issue (op := .xfer b) h).trans (shape_issue (op := .xfer b') h').symm,
    fun _ _ _ _ h h' => (shape_transact h).trans (shape_transact h').symm⟩

end Sys2Proof.Machine
end

section
/-! PROOF. A finite program runs to its end (`70_reset_and_hazards.md` R193, R194): between two operations BBT is ready for
the host's next word, and each word's operation returns. -/

namespace Sys2Proof.Machine

/-! ### How many events an operation appends (R194) -/

/-- The events of a host operation, Call and Return counted. -/
def HostOp.eventCount : HostOp → Nat
  | .init => 8
  | .xfer _ => 50
  | .transact _ => 244

/-- The events of an instruction the host issues; a wire command byte is none. -/
def issuedEventCount (i : Instr) : Nat :=
  match hostOpOf i with
  | some .init => 8
  | some (.xfer _) => 50
  | some (.transact _) => 244
  | none => 0

theorem issuedEventCount_of_hostOp {i : Instr} {op : HostOp} (h : hostOpOf i = some op) :
    issuedEventCount i = op.eventCount := by
  rw [issuedEventCount, h]
  cases op <;> rfl

theorem LineEvents.length_operationEvents {op : HostOp} {es : List Event} (h : LineEvents op es) (n : OpName)
    (v : ReturnValue) : (operationEvents op es n v).length = op.eventCount := by
  cases h with
  | init => rfl
  | xfer b r => rfl
  | transact t stat result =>
    simp only [operationEvents, frameEvents_eq, List.length_append, length_frameByteEvents]
    rfl

/-! ### Between two operations -/

/-- A trace that ends with a Return is one in which every operation has returned (R193 (b)). -/
theorem allReturned_ret (tr : List Event) (n : OpName) (v : ReturnValue) : allReturned (tr ++ [.ret n v]) = true := by
  simp [allReturned, List.filter_append]

theorem allReturned_operationEvents (tr : List Event) (op : HostOp) (es : List Event) (n : OpName) (v : ReturnValue) :
    allReturned (tr ++ operationEvents op es n v) = true := by
  rw [operationEvents, ← List.append_assoc]
  exact allReturned_ret ..

/-- BBT rests between two operations of a run that nothing has stopped, refused or will interrupt. -/
structure State.Between (s : State) : Prop where
  running  : s.fault = []
  idle     : s.seq = .idle
  alone    : s.overlaps = []
  unmarked : s.refusals = []
  returned : allReturned s.trace = true

/-- With nothing left to issue the run has ended (R193). -/
theorem State.Between.final {s : State} (h : s.Between) (hp : s.program = []) : s.final = true := by
  simp [State.final, State.isBusy, State.isStopped, hp, h.running, h.idle, h.unmarked, h.returned]

/-- A host operation that may start runs to its Return, and leaves BBT between operations (R150, R194). -/
theorem exec_between {i : Instr} {op : HostOp} {s : State} (hop : hostOpOf i = some op) (h : s.Between)
    (hi : op.needsInit = true → s.initDone = true) :
    ∃ t, exec i s = .next t ∧ t.Between ∧ t.initDone = true ∧ t.program = s.program ∧
      t.trace.length = s.trace.length + op.eventCount := by
  have completes := issue_alone (entryCheck_passes h.running h.idle hi) h.alone
  rw [← exec_of_hostOp hop] at completes
  obtain ⟨hidle, hdone⟩ := hostOp_returned (by simp [hop]) completes
  obtain ⟨es, n, v, lines, e⟩ := performed_trace op s
  refine ⟨_, completes, ⟨?_, hidle, ?_, ?_, ?_⟩, hdone, ?_, ?_⟩
  · rw [performAll_unchanged perform_fault, openCall_fault, h.running]
  · rw [performAll_unchanged perform_overlaps, openCall_overlaps, h.alone]
  · rw [performAll_unchanged perform_refusals, openCall_refusals, h.unmarked]
  · rw [e, allReturned_operationEvents]
  · rw [performAll_unchanged perform_program, openCall_program]
  · rw [e, List.length_append, lines.length_operationEvents]

/-- A step that issues the next word of the program runs its whole operation (log entries 1 and 2). -/
theorem step_between {s : State} {w : Hcw} {rest : List Hcw} {i : Instr} (h : s.Between) (hp : s.program = w :: rest)
    (hd : decodeHcw w = .instr i) (hi : s.initDone = true ∨ i = .init) :
    ∃ t, step s = .next t ∧ t.Between ∧ t.initDone = true ∧ t.program = rest ∧
      t.trace.length = s.trace.length + issuedEventCount i := by
  obtain ⟨op, hop⟩ := hostOpOf_decodeHcw hd
  have mayStart : op.needsInit = true → s.initDone = true := by
    intro needs
    obtain hdone | rfl := hi
    · exact hdone
    · cases hop
      cases needs
  rw [step_issues h.idle hp hd, issuedEventCount_of_hostOp hop]
  exact exec_between (s := { s with program := rest }) hop ⟨h.running, h.idle, h.alone, h.unmarked, h.returned⟩ mayStart

/-! ### The whole program -/

theorem run_succ_of_step {M : Host.Core} {s t : M.State} (h : M.step s = .next t) (k : Nat) :
    M.run (k + 1) s = M.run k t := by
  rw [Host.Core.run, h]

/-- A program of words that spell operations, INIT done or first, runs to its end, one step a word. -/
theorem run_program (ops : List Instr) : ∀ {s : State}, s.Between → s.program.map decodeHcw = ops.map Decoded.instr →
    (s.initDone = true ∨ ops = [] ∨ ops.head? = some .init) →
    ∃ t, core.run ops.length s = .next t ∧ t.final = true ∧
      t.trace.length = s.trace.length + (ops.map issuedEventCount).sum := by
  induction ops with
  | nil =>
    intro s h hp _
    exact ⟨s, rfl, h.final (List.map_eq_nil_iff.1 hp), rfl⟩
  | cons i ops ih =>
    intro s h hp hi
    obtain ⟨w, rest, hprog, hd, hrest⟩ := List.map_eq_cons_iff.1 hp
    obtain ⟨u, hstep, between, hdone, huprog, hulen⟩ := step_between h hprog hd (by simpa using hi)
    obtain ⟨t, hrun, hfinal, htlen⟩ := ih between (huprog ▸ hrest) (.inl hdone)
    refine ⟨t, (run_succ_of_step (M := core) hstep ops.length).trans hrun, hfinal, ?_⟩
    rw [htlen, hulen, List.map_cons, List.sum_cons, Nat.add_assoc]

/-- Settles O57, by induction on the program: each step issues a word and leaves BBT between operations. -/
theorem programRunsToItsEnd : Obligations.ProgramRunsToItsEnd :=
  fun _ ops running idle alone unmarked returned hp hi => run_program ops ⟨running, idle, alone, unmarked, returned⟩ hp hi

end Sys2Proof.Machine
end
